-- ==== Sys2Proof/Word.lean ====
section
/-! DEFINITION. The units the block stores and moves: the 8-bit byte and the 4-bit nibble (00_scope.md R9, R11). -/

namespace Sys2Proof

/-- "Every datum the block stores or moves is an 8-bit byte" (R9). -/
abbrev Byte := BitVec 8

/-- Half of a packet's or a status byte's first byte: a CIN, a cable number or a channel (R9, R90). -/
abbrev Nibble := BitVec 4

end Sys2Proof
end

