-- ==== Sys2Proof/Config.lean ====
section
/-! DEFINITION. What is fixed for one instance of the block and left open by the spec: the two OPEN parameters of
00_scope.md R7 and R8. An instance's parameters stand in its state, where nothing changes them; those of the reset
state are opaque, so a statement about it holds for every value the spec admits (safe: the log's entry 2). -/

namespace Sys2Proof

/-- The parameters of one instance of the block, "fixed before reset" (70_reset_and_hazards.md R270). -/
structure Params where
  /-- `RXQ_CAPACITY`, the number of bytes the byte queue can hold (R7). -/
  rxqCapacity : Nat
  /-- `TX_SCRATCH_BYTES`, the size in bytes of the encoder's scratch buffer (R8). -/
  txScratchBytes : Nat
  deriving DecidableEq, Repr

/-- The ranges of the parameters: 1 <= RXQ_CAPACITY <= 65535 (R7); TX_SCRATCH_BYTES a multiple of 4 with
4 <= TX_SCRATCH_BYTES <= 65532 (R8). -/
abbrev Params.wf (p : Params) : Prop :=
  1 ≤ p.rxqCapacity ∧ p.rxqCapacity ≤ 65535 ∧
    4 ≤ p.txScratchBytes ∧ p.txScratchBytes ≤ 65532 ∧ p.txScratchBytes % 4 = 0

/-- The open choice behind RXQ_CAPACITY: 0 to 65534. It has no body. -/
opaque Config.rxqChoice : Fin 65535

/-- The open choice behind TX_SCRATCH_BYTES: 0 to 16382. It has no body. -/
opaque Config.txChoice : Fin 16383

/-- The parameters of the block that `State.reset` is: any that R7 and R8 admit. -/
def Config.params : Params where
  rxqCapacity := Config.rxqChoice.val + 1
  txScratchBytes := 4 * (Config.txChoice.val + 1)

end Sys2Proof
end

