-- ==== Sys2Proof/Machine/State.lean ====
section
/-! DEFINITION. The state of the block (10_state.md R20 to R31), as plain data, and the state after reset (R270). -/

namespace Sys2Proof.Machine

/-- Why the model itself stops with a fault. There is no reason: every fault the spec describes is a state the block
goes on from (60_exceptions.md R244, R245), so it is taken as a next state (safe: the log's entry 6). -/
inductive Fault : Type
  deriving DecidableEq, Repr

/-- Why an instruction has no meaning. -/
inductive Refusal where
  /-- Raised by a dispatch arm of an instruction not modelled yet; no arm raises it. Safe. -/
  | notModelled (mnemonic : String)
  deriving DecidableEq, Repr

/-- Everything the spec gives the block, and the parameters of this instance of it. -/
structure State where
  /-- The command port: the bytes that have arrived and are not consumed, oldest first (R80, R81). -/
  cmdPort : List Byte
  /-- The response port: the response bytes the host has not read, oldest first (R83). -/
  respPort : List Byte
  /-- The receive queue `Q`, oldest byte first (R20). -/
  q : List Byte
  /-- The receive-armed flag `RX_ACTIVE` (R22). -/
  rxActive : Bool
  /-- The scratch buffer `SCR`, lowest offset first (R23). -/
  scr : List Byte
  /-- The fault register `FAULT` (R24). -/
  fault : Byte
  /-- The instance's parameters `RXQ_CAPACITY` and `TX_SCRATCH_BYTES`, which nothing changes (R7, R8, R270). -/
  params : Params
  deriving DecidableEq, Repr

/-- The block right after reset (R270): both ports empty, `Q` empty, disarmed, `SCR` empty, no fault; its parameters are
open (R7, R8). -/
def State.reset : State where
  cmdPort := []
  respPort := []
  q := []
  rxActive := false
  scr := []
  fault := 0x00#8
  params := Config.params

/-- The form of the two storages (R20, R23, R224): the queue within its capacity, the scratch buffer within its size
and holding whole packets. The block has no host-addressable memory (R50), so there is no address-keyed list. -/
abbrev Memory.wf (s : State) : Prop :=
  s.q.length ≤ s.params.rxqCapacity ∧ s.scr.length ≤ s.params.txScratchBytes ∧ s.scr.length % 4 = 0

end Sys2Proof.Machine
end

