-- ==== Sys2Proof/Machine/Operands.lean ====
section
/-! DEFINITION. The operand forms: the USB-MIDI packet and its fields (30_encoding.md R90), the constant tables
(10_state.md R25, R26), status bytes (00_scope.md R11), and the halves of a 16-bit count (20_memory.md R53). -/

namespace Sys2Proof.Machine

/-- A USB-MIDI event packet, "exactly 4 bytes" (R90). -/
structure Packet where
  /-- Byte 0: cable in bits 7:4, CIN in bits 3:0. -/
  b0 : Byte
  /-- Byte 1: MIDI byte 0. -/
  b1 : Byte
  /-- Byte 2: MIDI byte 1. -/
  b2 : Byte
  /-- Byte 3: MIDI byte 2. -/
  b3 : Byte
  deriving DecidableEq, Repr

/-- A packet in `SCR`, byte 0 at the lowest offset (R52). -/
def Packet.bytes (p : Packet) : List Byte := [p.b0, p.b1, p.b2, p.b3]

/-- Packets in emission order as bytes (R52). -/
def packetsBytes (ps : List Packet) : List Byte := ps.flatMap Packet.bytes

/-- `PAYLOAD_SIZE[16]`, CIN 0x0 to 0xF (R25). -/
def payloadSizeTable : List Nat := [3, 3, 2, 3, 3, 1, 2, 3, 3, 3, 3, 3, 2, 2, 3, 1]

/-- `CV_DATA_SIZE[16]`, CIN 0x0 to 0xF; read by no rule (R26). -/
def cvDataSizeTable : List Nat := [0, 0, 0, 0, 0, 0, 0, 0, 2, 2, 2, 2, 1, 1, 2, 0]

/-- `cin = packet[0] & 0x0F` (R140, R144). -/
def cinOf (p0 : Byte) : Byte := p0 &&& 0x0F#8

/-- `PAYLOAD_SIZE[cin]` (R25). -/
def payloadSize (cin : Byte) : Nat := payloadSizeTable.getD cin.toNat 0

/-- The CIN of a channel-voice status, `(s & 0xF0) >> 4` (R92). -/
def cvCin (s : Byte) : Byte := (s &&& 0xF0#8) >>> 4

/-- A status byte: bit 7 set (R11). -/
def isStatus (b : Byte) : Bool := b &&& 0x80#8 != 0x00#8

/-- `m[i]`; a rule reads it only below `|m|`. -/
def byteAt (m : List Byte) (i : Nat) : Byte := m.getD i 0x00#8

/-- `c[15:8]` of a count (R53, R124). -/
def highByte (c : Nat) : Byte := BitVec.ofNat 8 (c / 256)

/-- `c[7:0]` of a count (R53, R124). -/
def lowByte (c : Nat) : Byte := BitVec.ofNat 8 (c % 256)

/-- `Q_COUNT`, which is `|Q|` (R20). -/
def State.qCount (s : State) : Nat := s.q.length

/-- `TX_PTR`, which is `|SCR|` (R23). -/
def State.txPtr (s : State) : Nat := s.scr.length

end Sys2Proof.Machine
end

