-- ==== Sys2Proof/Machine/Flags.lean ====
section
/-! DEFINITION. The block's status values (10_state.md R29): the result of a push, the armed flag and the empty test as
response bytes, and the fault codes (60_exceptions.md R241). The block has no condition-code register. -/

namespace Sys2Proof.Machine

/-- The result of the queue write `QPush`: "ok | overflow" (R121). -/
inductive PushResult where
  | ok
  | overflow
  deriving DecidableEq, Repr

/-- QWRITE's response to a push: 0x00 ok, 0x01 overflow (R84, R121). -/
def pushResponse (r : PushResult) : Byte :=
  match r with
  | .ok => 0x00#8
  | .overflow => 0x01#8

/-- A Boolean result as a response byte: 0x01 true, 0x00 false (R125, R162). -/
def flagResponse (b : Bool) : Byte := if b then 0x01#8 else 0x00#8

/-- NONE: no fault taken (R241). -/
def faultNone : Byte := 0x00#8

/-- QUEUE_EMPTY: pop from an empty queue (R241). -/
def faultQueueEmpty : Byte := 0x01#8

/-- SCRATCH_OVERFLOW: a packet would end past TX_SCRATCH_BYTES (R241). -/
def faultScratchOverflow : Byte := 0x02#8

/-- ILLEGAL_OPCODE: an unassigned opcode (R241). -/
def faultIllegalOpcode : Byte := 0x03#8

/-- BAD_LENGTH: a DECODE with `len > 4` (R241). -/
def faultBadLength : Byte := 0x04#8

/-- The values the fault register takes (R241). -/
def faultCodes : List Byte := [0x00#8, 0x01#8, 0x02#8, 0x03#8, 0x04#8]

/-- The block is faulted: `FAULT` is not 0x00 (R245). -/
def State.faulted (s : State) : Bool := s.fault != 0x00#8

end Sys2Proof.Machine
end

