-- ==== Sys2Proof/Machine/Ops.lean ====
section
/-! DEFINITION. The primitives of 00_scope.md R13, each written once: over the two storages (`QPush`, `QPop`, `Emit`,
with the capacity as an argument), over the state (`Respond`, the flush), and taking a fault (`raise Fault`, R244),
with the rule that a faulted block runs no command (R245). There is no return from a fault (R246). -/

namespace Sys2Proof.Machine

/-- What a meaning answers. -/
abbrev Out := Host.Outcome State Fault Refusal

/-! The storages. -/

/-- `QPush(b)` on a queue of capacity `cap` (R121). -/
def queuePush (cap : Nat) (b : Byte) (q : List Byte) : List Byte × PushResult :=
  if q.length = cap then (q, .overflow) else (q ++ [b], .ok)

/-- `QPush` of each byte in turn, stopping at the first overflow (R140 steps 3 and 4). -/
def queuePushAll (cap : Nat) (bs q : List Byte) : List Byte × PushResult :=
  match bs with
  | [] => (q, .ok)
  | b :: rest =>
    match queuePush cap b q with
    | (q', .ok) => queuePushAll cap rest q'
    | (q', .overflow) => (q', .overflow)

/-- `QPop()`: the oldest byte and the queue after it, or nothing from an empty queue (R122). -/
def queuePop (q : List Byte) : Option (Byte × List Byte) :=
  match q with
  | [] => none
  | b :: rest => some (b, rest)

/-- `Emit` into a scratch buffer of `size` bytes: the buffer with the packet appended, or nothing where the packet
would end past the buffer (R181). -/
def scratchEmit (size : Nat) (p : Packet) (scr : List Byte) : Option (List Byte) :=
  if scr.length + 4 > size then none else some (scr ++ p.bytes)

/-- `Emit` of each packet in turn, stopping at the first that does not fit: the buffer with the packets before it,
and whether all fitted (R181, R199). -/
def scratchEmitAll (size : Nat) (ps : List Packet) (scr : List Byte) : List Byte × Bool :=
  match ps with
  | [] => (scr, true)
  | p :: rest =>
    match scratchEmit size p scr with
    | some scr' => scratchEmitAll size rest scr'
    | none => (scr, false)

/-! The state. -/

/-- The state with the command port's bytes replaced. -/
def State.withCmdPort (s : State) (bytes : List Byte) : State := { s with cmdPort := bytes }

/-- The state with the queue replaced. -/
def State.withQ (s : State) (q : List Byte) : State := { s with q := q }

/-- The state with the armed flag replaced. -/
def State.withRxActive (s : State) (b : Bool) : State := { s with rxActive := b }

/-- The state with the scratch buffer replaced. -/
def State.withScr (s : State) (scr : List Byte) : State := { s with scr := scr }

/-- `Respond` of each byte in order (R83). -/
def State.respond (s : State) (bs : List Byte) : State := { s with respPort := s.respPort ++ bs }

/-- `raise Fault(code)`: taking a fault (R244). The command ends because nothing follows this in a meaning. -/
def State.raiseFault (s : State) (code : Byte) : State := { s with fault := code }

/-- `Q <- []`, as QFLUSH, RX_ARM and RX_FLUSH do it (R123). -/
def State.flushQ (s : State) : State := s.withQ []

/-- The decoder's copy of payload bytes into the queue, with the overflow fail-stop (R140 steps 3 and 4, R141). -/
def copyPayload (bs : List Byte) (s : State) : State :=
  match queuePushAll s.params.rxqCapacity bs s.q with
  | (q', .ok) => s.withQ q'
  | (q', .overflow) => (s.withQ q').withRxActive false

/-- The encoder's emission of packets into the scratch buffer; at the first that does not fit the fault is taken and
the packets before it stay (R181, R199). -/
def emitPackets (ps : List Packet) (s : State) : State :=
  match scratchEmitAll s.params.txScratchBytes ps s.scr with
  | (scr', true) => s.withScr scr'
  | (scr', false) => (s.withScr scr').raiseFault faultScratchOverflow

/-- A command's effect `f`, which happens only while no fault has been taken: "no command changes" a faulted block
(R245). -/
def command (f : State → State) (s : State) : Out := .next (if s.faulted then s else f s)

end Sys2Proof.Machine
end

