-- ==== Sys2Proof/Machine/Decoder.lean ====
section
/-! DEFINITION. The USB-MIDI packet decoder (41_decoder.md): DECODE over its packet bytes, and one row per CIN with the
bytes the CIN map of 30_encoding.md R91 says it enqueues. -/

namespace Sys2Proof.Machine

/-- The decoder's run over the packet bytes `p`, in the order of R140's pseudocode; above 4 bytes, the length fault
of R86 (the port raises it before a longer packet arrives: the log's entry 8). -/
def decodePacket (p : List Byte) (s : State) : State :=
  if 4 < p.length then s.raiseFault faultBadLength
  else if s.rxActive = false then s
  else if p.length < 4 then s
  else if cinOf (byteAt p 0) = 0x00#8 ∨ cinOf (byteAt p 0) = 0x01#8 then s
  else copyPayload ((p.drop 1).take (payloadSize (cinOf (byteAt p 0)))) s

/-- What a packet row does with its payload: nothing while disarmed, else the copy (R140). -/
def enqueuePayload (bs : List Byte) (s : State) : State :=
  if s.rxActive = false then s else copyPayload bs s

/-- DECODE (R140, R142). -/
def execDecode (p : List Byte) (s : State) : Out := command (decodePacket p) s

/-- CIN 0x0, reserved: the decoder discards the packet (R91, R143). -/
def execUsbmidiCin0 (_cable : Nibble) (_m0 _m1 _m2 : Byte) (s : State) : Out := command (fun s => s) s

/-- CIN 0x1, reserved: the decoder discards the packet (R91, R143). -/
def execUsbmidiCin1 (_cable : Nibble) (_m0 _m1 _m2 : Byte) (s : State) : Out := command (fun s => s) s

/-- CIN 0x2, System Common 2-byte: enqueues bytes 1, 2 (R91). -/
def execUsbmidiCin2 (_cable : Nibble) (m0 m1 _m2 : Byte) (s : State) : Out :=
  command (enqueuePayload [m0, m1]) s

/-- CIN 0x3, System Common 3-byte: enqueues bytes 1 to 3 (R91). -/
def execUsbmidiCin3 (_cable : Nibble) (m0 m1 m2 : Byte) (s : State) : Out :=
  command (enqueuePayload [m0, m1, m2]) s

/-- CIN 0x4, SysEx continuation: enqueues bytes 1 to 3 (R91). -/
def execUsbmidiCin4 (_cable : Nibble) (m0 m1 m2 : Byte) (s : State) : Out :=
  command (enqueuePayload [m0, m1, m2]) s

/-- CIN 0x5, SysEx terminal 1 byte or single byte: enqueues byte 1 (R91). -/
def execUsbmidiCin5 (_cable : Nibble) (m0 _m1 _m2 : Byte) (s : State) : Out :=
  command (enqueuePayload [m0]) s

/-- CIN 0x6, SysEx terminal 2 bytes: enqueues bytes 1, 2 (R91). -/
def execUsbmidiCin6 (_cable : Nibble) (m0 m1 _m2 : Byte) (s : State) : Out :=
  command (enqueuePayload [m0, m1]) s

/-- CIN 0x7, SysEx terminal 3 bytes: enqueues bytes 1 to 3 (R91). -/
def execUsbmidiCin7 (_cable : Nibble) (m0 m1 m2 : Byte) (s : State) : Out :=
  command (enqueuePayload [m0, m1, m2]) s

/-- CIN 0x8, channel voice 0x8n: enqueues bytes 1 to 3 (R91). -/
def execUsbmidiCin8 (_cable : Nibble) (m0 m1 m2 : Byte) (s : State) : Out :=
  command (enqueuePayload [m0, m1, m2]) s

/-- CIN 0x9, channel voice 0x9n: enqueues bytes 1 to 3 (R91). -/
def execUsbmidiCin9 (_cable : Nibble) (m0 m1 m2 : Byte) (s : State) : Out :=
  command (enqueuePayload [m0, m1, m2]) s

/-- CIN 0xA, channel voice 0xAn: enqueues bytes 1 to 3 (R91). -/
def execUsbmidiCinA (_cable : Nibble) (m0 m1 m2 : Byte) (s : State) : Out :=
  command (enqueuePayload [m0, m1, m2]) s

/-- CIN 0xB, channel voice 0xBn: enqueues bytes 1 to 3 (R91). -/
def execUsbmidiCinB (_cable : Nibble) (m0 m1 m2 : Byte) (s : State) : Out :=
  command (enqueuePayload [m0, m1, m2]) s

/-- CIN 0xC, channel voice 0xCn: enqueues bytes 1, 2 (R91). -/
def execUsbmidiCinC (_cable : Nibble) (m0 m1 _m2 : Byte) (s : State) : Out :=
  command (enqueuePayload [m0, m1]) s

/-- CIN 0xD, channel voice 0xDn: enqueues bytes 1, 2 (R91). -/
def execUsbmidiCinD (_cable : Nibble) (m0 m1 _m2 : Byte) (s : State) : Out :=
  command (enqueuePayload [m0, m1]) s

/-- CIN 0xE, channel voice 0xEn: enqueues bytes 1 to 3 (R91). -/
def execUsbmidiCinE (_cable : Nibble) (m0 m1 m2 : Byte) (s : State) : Out :=
  command (enqueuePayload [m0, m1, m2]) s

/-- CIN 0xF, not described by the source: enqueues byte 1 (R91). -/
def execUsbmidiCinF (_cable : Nibble) (m0 _m1 _m2 : Byte) (s : State) : Out :=
  command (enqueuePayload [m0]) s

end Sys2Proof.Machine
end

