-- ==== Sys2Proof/Syntax.lean ====
section
/-! DEFINITION. The instructions: one constructor per row of spec/opcode_table.json (30_encoding.md R84, R91, R94).
A DECODE command with a whole packet is the packet's USBMIDI_CIN row; an ENCODE_SINGLE command with a non-empty span
is the span's MIDI status row; the rows DECODE and ENCODE_SINGLE are what is left, the short packet and the empty
span (DESIGN CHOICE, safe: the log's entry 1). -/

namespace Sys2Proof

/-- The 44 rows of the opcode table: the 14 commands (R84), the 16 CINs (R91), the 14 status-byte classes (R94). -/
inductive Instr where
  /-- QWRITE b: push one byte (R121). -/
  | qwrite (b : Byte)
  /-- QREAD: pop the oldest byte (R122). -/
  | qread
  /-- QFLUSH: empty the queue (R123). -/
  | qflush
  /-- QREADABLE: report the number of queued bytes (R124). -/
  | qreadable
  /-- QISEMPTY: test whether the queue is empty (R125). -/
  | qisempty
  /-- DECODE of the packet bytes `p` (R140); read from the port with fewer than 4 bytes. -/
  | decode (p : List Byte)
  /-- RX_ARM: flush the queue and arm the decoder (R160). -/
  | rxArm
  /-- RX_FLUSH: flush the queue, keep RX_ACTIVE (R161). -/
  | rxFlush
  /-- RX_ACTIVE: read the armed flag (R162). -/
  | rxActive
  /-- ENCODE of the input bytes `m` (R195). -/
  | encode (m : List Byte)
  /-- ENCODE_SINGLE of the span `m` (R193); read from the port with the empty span. -/
  | encodeSingle (m : List Byte)
  /-- TX_TAKE: return the encoded bytes (R220). -/
  | txTake
  /-- TX_RELEASE: reset the scratch offset (R221). -/
  | txRelease
  /-- STATUS: read the fault register (R247). -/
  | status
  /-- A packet of CIN 0x0, reserved (R143). -/
  | usbmidiCin0 (cable : Nibble) (m0 m1 m2 : Byte)
  /-- A packet of CIN 0x1, reserved (R143). -/
  | usbmidiCin1 (cable : Nibble) (m0 m1 m2 : Byte)
  /-- A packet of CIN 0x2, System Common 2-byte (R91). -/
  | usbmidiCin2 (cable : Nibble) (m0 m1 m2 : Byte)
  /-- A packet of CIN 0x3, System Common 3-byte (R91). -/
  | usbmidiCin3 (cable : Nibble) (m0 m1 m2 : Byte)
  /-- A packet of CIN 0x4, SysEx continuation (R91). -/
  | usbmidiCin4 (cable : Nibble) (m0 m1 m2 : Byte)
  /-- A packet of CIN 0x5, SysEx terminal with 1 byte or a single byte (R91). -/
  | usbmidiCin5 (cable : Nibble) (m0 m1 m2 : Byte)
  /-- A packet of CIN 0x6, SysEx terminal with 2 bytes (R91). -/
  | usbmidiCin6 (cable : Nibble) (m0 m1 m2 : Byte)
  /-- A packet of CIN 0x7, SysEx terminal with 3 bytes (R91). -/
  | usbmidiCin7 (cable : Nibble) (m0 m1 m2 : Byte)
  /-- A packet of CIN 0x8, channel voice 0x8n (R91). -/
  | usbmidiCin8 (cable : Nibble) (m0 m1 m2 : Byte)
  /-- A packet of CIN 0x9, channel voice 0x9n (R91). -/
  | usbmidiCin9 (cable : Nibble) (m0 m1 m2 : Byte)
  /-- A packet of CIN 0xA, channel voice 0xAn (R91). -/
  | usbmidiCinA (cable : Nibble) (m0 m1 m2 : Byte)
  /-- A packet of CIN 0xB, channel voice 0xBn (R91). -/
  | usbmidiCinB (cable : Nibble) (m0 m1 m2 : Byte)
  /-- A packet of CIN 0xC, channel voice 0xCn (R91). -/
  | usbmidiCinC (cable : Nibble) (m0 m1 m2 : Byte)
  /-- A packet of CIN 0xD, channel voice 0xDn (R91). -/
  | usbmidiCinD (cable : Nibble) (m0 m1 m2 : Byte)
  /-- A packet of CIN 0xE, channel voice 0xEn (R91). -/
  | usbmidiCinE (cable : Nibble) (m0 m1 m2 : Byte)
  /-- A packet of CIN 0xF, of payload 1 (R91). -/
  | usbmidiCinF (cable : Nibble) (m0 m1 m2 : Byte)
  /-- A span headed by status 0x8n, channel voice of size 3 (R183); `rest` is the span after its head. -/
  | midiCv3_8n (ch : Nibble) (rest : List Byte)
  /-- A span headed by status 0x9n, channel voice of size 3 (R183). -/
  | midiCv3_9n (ch : Nibble) (rest : List Byte)
  /-- A span headed by status 0xAn, channel voice of size 3 (R183). -/
  | midiCv3_An (ch : Nibble) (rest : List Byte)
  /-- A span headed by status 0xBn, channel voice of size 3 (R183). -/
  | midiCv3_Bn (ch : Nibble) (rest : List Byte)
  /-- A span headed by status 0xCn, channel voice of size 2 (R183). -/
  | midiCv2_Cn (ch : Nibble) (rest : List Byte)
  /-- A span headed by status 0xDn, channel voice of size 2 (R183). -/
  | midiCv2_Dn (ch : Nibble) (rest : List Byte)
  /-- A span headed by status 0xEn, channel voice of size 3 (R183). -/
  | midiCv3_En (ch : Nibble) (rest : List Byte)
  /-- A span headed by the data byte `d`, bit 7 clear (R192). -/
  | midiLeadingData (d : BitVec 7) (rest : List Byte)
  /-- A span headed by 0xF0, SysEx (R187). -/
  | midiSysex (rest : List Byte)
  /-- A span headed by 0xF1, System Common of size 2 (R185). -/
  | midiSc2_F1 (rest : List Byte)
  /-- A span headed by 0xF2, System Common of size 3 (R184). -/
  | midiSc3_F2 (rest : List Byte)
  /-- A span headed by 0xF3, System Common of size 2 (R185). -/
  | midiSc2_F3 (rest : List Byte)
  /-- A span headed by 0xF4 to 0xF7, one byte; `lo` is the status byte's bits 1:0 (R186). -/
  | midi1b_F4_F7 (lo : BitVec 2) (rest : List Byte)
  /-- A span headed by 0xF8 to 0xFF, System Real-Time; `lo` is the status byte's bits 2:0 (R186). -/
  | midiRt_F8_FF (lo : BitVec 3) (rest : List Byte)
  deriving DecidableEq, Repr

end Sys2Proof
end

