-- ==== Sys2Proof/WellFormed.lean ====
section
/-! DEFINITION. Which instructions the command port can carry (30_encoding.md R82): the sizes of the P and L formats. -/

namespace Sys2Proof

/-- The instruction is one the port can carry, in the form the decoder gives it.
A short DECODE has fewer than 4 packet bytes (R82, R142); an L command has at most 65535 input bytes (R82); an
ENCODE_SINGLE row is the empty span; a status row's span counts its head, so at most 65534 bytes follow it. -/
abbrev Instr.WellFormed : Instr → Prop
  | .decode p => p.length < 4
  | .encode m => m.length ≤ 65535
  | .encodeSingle m => m = []
  | .midiCv3_8n _ rest => rest.length ≤ 65534
  | .midiCv3_9n _ rest => rest.length ≤ 65534
  | .midiCv3_An _ rest => rest.length ≤ 65534
  | .midiCv3_Bn _ rest => rest.length ≤ 65534
  | .midiCv2_Cn _ rest => rest.length ≤ 65534
  | .midiCv2_Dn _ rest => rest.length ≤ 65534
  | .midiCv3_En _ rest => rest.length ≤ 65534
  | .midiLeadingData _ rest => rest.length ≤ 65534
  | .midiSysex rest => rest.length ≤ 65534
  | .midiSc2_F1 rest => rest.length ≤ 65534
  | .midiSc3_F2 rest => rest.length ≤ 65534
  | .midiSc2_F3 rest => rest.length ≤ 65534
  | .midi1b_F4_F7 _ rest => rest.length ≤ 65534
  | .midiRt_F8_FF _ rest => rest.length ≤ 65534
  | .qwrite _ => True
  | .qread => True
  | .qflush => True
  | .qreadable => True
  | .qisempty => True
  | .rxArm => True
  | .rxFlush => True
  | .rxActive => True
  | .txTake => True
  | .txRelease => True
  | .status => True
  | .usbmidiCin0 _ _ _ _ => True
  | .usbmidiCin1 _ _ _ _ => True
  | .usbmidiCin2 _ _ _ _ => True
  | .usbmidiCin3 _ _ _ _ => True
  | .usbmidiCin4 _ _ _ _ => True
  | .usbmidiCin5 _ _ _ _ => True
  | .usbmidiCin6 _ _ _ _ => True
  | .usbmidiCin7 _ _ _ _ => True
  | .usbmidiCin8 _ _ _ _ => True
  | .usbmidiCin9 _ _ _ _ => True
  | .usbmidiCinA _ _ _ _ => True
  | .usbmidiCinB _ _ _ _ => True
  | .usbmidiCinC _ _ _ _ => True
  | .usbmidiCinD _ _ _ _ => True
  | .usbmidiCinE _ _ _ _ => True
  | .usbmidiCinF _ _ _ _ => True

end Sys2Proof
end

