-- ==== Sys2Proof/Decode.lean ====
section
/-! DEFINITION. The command port's decoder, total on any bytes (30_encoding.md R82 to R89), and the encoder back to
bytes. The packet field of a 4-byte DECODE is read by its CIN (R91), the span of an ENCODE_SINGLE by the class of
its first byte (R94, in the masks of the opcode table). -/

namespace Sys2Proof

/-- What the bytes on the command port are (R89): a complete command and the bytes after it, a command still to be
completed, or a byte that faults with the bytes after it. -/
inductive Decoded where
  /-- A complete command (R81) and the bytes behind it. -/
  | instr (i : Instr) (rest : List Byte)
  /-- A command whose bytes have not all arrived, or none at all (R81). -/
  | hold
  /-- The first byte is an unassigned opcode (R88). -/
  | illegalOpcode (rest : List Byte)
  /-- A DECODE whose `len` byte exceeds 4; no packet byte is consumed (R86). -/
  | badLength (rest : List Byte)
  deriving DecidableEq, Repr

/-- The row of a 4-byte packet, by its CIN in bits 3:0 of byte 0 (R90, R91). -/
def packetRow (p0 m0 m1 m2 : Byte) : Instr :=
  let cable := p0.extractLsb' 4 4
  let cin := p0 &&& 0x0F#8
  if cin = 0x00#8 then .usbmidiCin0 cable m0 m1 m2
  else if cin = 0x01#8 then .usbmidiCin1 cable m0 m1 m2
  else if cin = 0x02#8 then .usbmidiCin2 cable m0 m1 m2
  else if cin = 0x03#8 then .usbmidiCin3 cable m0 m1 m2
  else if cin = 0x04#8 then .usbmidiCin4 cable m0 m1 m2
  else if cin = 0x05#8 then .usbmidiCin5 cable m0 m1 m2
  else if cin = 0x06#8 then .usbmidiCin6 cable m0 m1 m2
  else if cin = 0x07#8 then .usbmidiCin7 cable m0 m1 m2
  else if cin = 0x08#8 then .usbmidiCin8 cable m0 m1 m2
  else if cin = 0x09#8 then .usbmidiCin9 cable m0 m1 m2
  else if cin = 0x0A#8 then .usbmidiCinA cable m0 m1 m2
  else if cin = 0x0B#8 then .usbmidiCinB cable m0 m1 m2
  else if cin = 0x0C#8 then .usbmidiCinC cable m0 m1 m2
  else if cin = 0x0D#8 then .usbmidiCinD cable m0 m1 m2
  else if cin = 0x0E#8 then .usbmidiCinE cable m0 m1 m2
  else .usbmidiCinF cable m0 m1 m2

/-- The DECODE command's operand field: a whole packet is its CIN's row, a shorter one is the DECODE row (R140, R142). -/
def decodeRow (p : List Byte) : Instr :=
  match p with
  | [p0, m0, m1, m2] => packetRow p0 m0 m1 m2
  | _ => .decode p

/-- The row of a span headed by `s`, by the masks and matches of the opcode table (R94). -/
def classRow (s : Byte) (rest : List Byte) : Instr :=
  if s &&& 0x80#8 = 0x00#8 then .midiLeadingData (s.extractLsb' 0 7) rest
  else if s &&& 0xF0#8 = 0x80#8 then .midiCv3_8n (s.extractLsb' 0 4) rest
  else if s &&& 0xF0#8 = 0x90#8 then .midiCv3_9n (s.extractLsb' 0 4) rest
  else if s &&& 0xF0#8 = 0xA0#8 then .midiCv3_An (s.extractLsb' 0 4) rest
  else if s &&& 0xF0#8 = 0xB0#8 then .midiCv3_Bn (s.extractLsb' 0 4) rest
  else if s &&& 0xF0#8 = 0xC0#8 then .midiCv2_Cn (s.extractLsb' 0 4) rest
  else if s &&& 0xF0#8 = 0xD0#8 then .midiCv2_Dn (s.extractLsb' 0 4) rest
  else if s &&& 0xF0#8 = 0xE0#8 then .midiCv3_En (s.extractLsb' 0 4) rest
  else if s &&& 0xFF#8 = 0xF0#8 then .midiSysex rest
  else if s &&& 0xFF#8 = 0xF1#8 then .midiSc2_F1 rest
  else if s &&& 0xFF#8 = 0xF2#8 then .midiSc3_F2 rest
  else if s &&& 0xFF#8 = 0xF3#8 then .midiSc2_F3 rest
  else if s &&& 0xFC#8 = 0xF4#8 then .midi1b_F4_F7 (s.extractLsb' 0 2) rest
  else .midiRt_F8_FF (s.extractLsb' 0 3) rest

/-- The ENCODE_SINGLE command's operand field: a non-empty span is its class's row, the empty one is the
ENCODE_SINGLE row (R193, R188). -/
def spanRow (m : List Byte) : Instr :=
  match m with
  | [] => .encodeSingle []
  | s :: rest => classRow s rest

/-- Format N: the opcode byte alone (R82). -/
def formatN (i : Instr) (t : List Byte) : Decoded := .instr i t

/-- Format B: one data byte (R82). -/
def formatB (f : Byte → Instr) (t : List Byte) : Decoded :=
  match t with
  | [] => .hold
  | b :: rest => .instr (f b) rest

/-- Format P: a `len` byte, refused above 4 as soon as it arrives (R86), then `len` packet bytes (R82). -/
def formatP (f : List Byte → Instr) (t : List Byte) : Decoded :=
  match t with
  | [] => .hold
  | len :: rest =>
    if 4 < len.toNat then .badLength rest
    else if rest.length < len.toNat then .hold
    else .instr (f (rest.take len.toNat)) (rest.drop len.toNat)

/-- Format L: a 16-bit size, high byte first (R53, R85), then that many input bytes (R82). -/
def formatL (f : List Byte → Instr) (t : List Byte) : Decoded :=
  match t with
  | hi :: lo :: rest =>
    if rest.length < hi.toNat * 256 + lo.toNat then .hold
    else .instr (f (rest.take (hi.toNat * 256 + lo.toNat))) (rest.drop (hi.toNat * 256 + lo.toNat))
  | _ => .hold

/-- A command by its opcode byte (R84), from the bytes `t` after it. -/
def decodeOp (op : Byte) (t : List Byte) : Decoded :=
  if op = 0x01#8 then formatB .qwrite t
  else if op = 0x02#8 then formatN .qread t
  else if op = 0x03#8 then formatN .qflush t
  else if op = 0x04#8 then formatN .qreadable t
  else if op = 0x05#8 then formatN .qisempty t
  else if op = 0x10#8 then formatP decodeRow t
  else if op = 0x20#8 then formatN .rxArm t
  else if op = 0x21#8 then formatN .rxFlush t
  else if op = 0x22#8 then formatN .rxActive t
  else if op = 0x30#8 then formatL .encode t
  else if op = 0x31#8 then formatL spanRow t
  else if op = 0x32#8 then formatN .txTake t
  else if op = 0x33#8 then formatN .txRelease t
  else if op = 0x7F#8 then formatN .status t
  else .illegalOpcode t

/-- What stands at the front of the command port (R87, R89). -/
def decodePort (bytes : List Byte) : Decoded :=
  match bytes with
  | [] => .hold
  | op :: t => decodeOp op t

/-! The encoder, from the same rules. -/

/-- The bytes of a format P command (R82). -/
def bytesP (op : Byte) (p : List Byte) : List Byte := op :: BitVec.ofNat 8 p.length :: p

/-- The bytes of a format L command, the size high byte first (R82, R53). -/
def bytesL (op : Byte) (m : List Byte) : List Byte :=
  op :: BitVec.ofNat 8 (m.length / 256) :: BitVec.ofNat 8 (m.length % 256) :: m

/-- Packet byte 0: the cable in bits 7:4, the CIN in bits 3:0 (R90). -/
def packetHead (cable cin : Nibble) : Byte := cable ++ cin

/-- A channel-voice status byte: its kind in bits 7:4, the channel in bits 3:0 (R94, R183). -/
def statusHead (kind ch : Nibble) : Byte := kind ++ ch

/-- A data byte: bit 7 clear (R11, R192). -/
def dataHead (d : BitVec 7) : Byte := 0#1 ++ d

/-- A status byte 0xF4 to 0xF7 by its bits 1:0 (R186). -/
def oneByteHead (lo : BitVec 2) : Byte := 0b111101#6 ++ lo

/-- A status byte 0xF8 to 0xFF by its bits 2:0 (R186). -/
def realTimeHead (lo : BitVec 3) : Byte := 0b11111#5 ++ lo

/-- The 4 bytes a packet row carries, and none for another instruction (R90). -/
def packetBytes (i : Instr) : List Byte :=
  match i with
  | .usbmidiCin0 cable m0 m1 m2 => [packetHead cable 0x0#4, m0, m1, m2]
  | .usbmidiCin1 cable m0 m1 m2 => [packetHead cable 0x1#4, m0, m1, m2]
  | .usbmidiCin2 cable m0 m1 m2 => [packetHead cable 0x2#4, m0, m1, m2]
  | .usbmidiCin3 cable m0 m1 m2 => [packetHead cable 0x3#4, m0, m1, m2]
  | .usbmidiCin4 cable m0 m1 m2 => [packetHead cable 0x4#4, m0, m1, m2]
  | .usbmidiCin5 cable m0 m1 m2 => [packetHead cable 0x5#4, m0, m1, m2]
  | .usbmidiCin6 cable m0 m1 m2 => [packetHead cable 0x6#4, m0, m1, m2]
  | .usbmidiCin7 cable m0 m1 m2 => [packetHead cable 0x7#4, m0, m1, m2]
  | .usbmidiCin8 cable m0 m1 m2 => [packetHead cable 0x8#4, m0, m1, m2]
  | .usbmidiCin9 cable m0 m1 m2 => [packetHead cable 0x9#4, m0, m1, m2]
  | .usbmidiCinA cable m0 m1 m2 => [packetHead cable 0xA#4, m0, m1, m2]
  | .usbmidiCinB cable m0 m1 m2 => [packetHead cable 0xB#4, m0, m1, m2]
  | .usbmidiCinC cable m0 m1 m2 => [packetHead cable 0xC#4, m0, m1, m2]
  | .usbmidiCinD cable m0 m1 m2 => [packetHead cable 0xD#4, m0, m1, m2]
  | .usbmidiCinE cable m0 m1 m2 => [packetHead cable 0xE#4, m0, m1, m2]
  | .usbmidiCinF cable m0 m1 m2 => [packetHead cable 0xF#4, m0, m1, m2]
  | _ => []

/-- The span a status row carries, its head first, and the empty span for another instruction (R94). -/
def spanBytes (i : Instr) : List Byte :=
  match i with
  | .midiCv3_8n ch rest => statusHead 0x8#4 ch :: rest
  | .midiCv3_9n ch rest => statusHead 0x9#4 ch :: rest
  | .midiCv3_An ch rest => statusHead 0xA#4 ch :: rest
  | .midiCv3_Bn ch rest => statusHead 0xB#4 ch :: rest
  | .midiCv2_Cn ch rest => statusHead 0xC#4 ch :: rest
  | .midiCv2_Dn ch rest => statusHead 0xD#4 ch :: rest
  | .midiCv3_En ch rest => statusHead 0xE#4 ch :: rest
  | .midiLeadingData d rest => dataHead d :: rest
  | .midiSysex rest => 0xF0#8 :: rest
  | .midiSc2_F1 rest => 0xF1#8 :: rest
  | .midiSc3_F2 rest => 0xF2#8 :: rest
  | .midiSc2_F3 rest => 0xF3#8 :: rest
  | .midi1b_F4_F7 lo rest => oneByteHead lo :: rest
  | .midiRt_F8_FF lo rest => realTimeHead lo :: rest
  | _ => []

/-- The bytes of an instruction on the command port (R82, R84). -/
def encodeInstr (i : Instr) : List Byte :=
  match i with
  | .qwrite b => [0x01#8, b]
  | .qread => [0x02#8]
  | .qflush => [0x03#8]
  | .qreadable => [0x04#8]
  | .qisempty => [0x05#8]
  | .decode p => bytesP 0x10#8 p
  | .rxArm => [0x20#8]
  | .rxFlush => [0x21#8]
  | .rxActive => [0x22#8]
  | .encode m => bytesL 0x30#8 m
  | .encodeSingle m => bytesL 0x31#8 m
  | .txTake => [0x32#8]
  | .txRelease => [0x33#8]
  | .status => [0x7F#8]
  | .usbmidiCin0 cable m0 m1 m2 => bytesP 0x10#8 (packetBytes (.usbmidiCin0 cable m0 m1 m2))
  | .usbmidiCin1 cable m0 m1 m2 => bytesP 0x10#8 (packetBytes (.usbmidiCin1 cable m0 m1 m2))
  | .usbmidiCin2 cable m0 m1 m2 => bytesP 0x10#8 (packetBytes (.usbmidiCin2 cable m0 m1 m2))
  | .usbmidiCin3 cable m0 m1 m2 => bytesP 0x10#8 (packetBytes (.usbmidiCin3 cable m0 m1 m2))
  | .usbmidiCin4 cable m0 m1 m2 => bytesP 0x10#8 (packetBytes (.usbmidiCin4 cable m0 m1 m2))
  | .usbmidiCin5 cable m0 m1 m2 => bytesP 0x10#8 (packetBytes (.usbmidiCin5 cable m0 m1 m2))
  | .usbmidiCin6 cable m0 m1 m2 => bytesP 0x10#8 (packetBytes (.usbmidiCin6 cable m0 m1 m2))
  | .usbmidiCin7 cable m0 m1 m2 => bytesP 0x10#8 (packetBytes (.usbmidiCin7 cable m0 m1 m2))
  | .usbmidiCin8 cable m0 m1 m2 => bytesP 0x10#8 (packetBytes (.usbmidiCin8 cable m0 m1 m2))
  | .usbmidiCin9 cable m0 m1 m2 => bytesP 0x10#8 (packetBytes (.usbmidiCin9 cable m0 m1 m2))
  | .usbmidiCinA cable m0 m1 m2 => bytesP 0x10#8 (packetBytes (.usbmidiCinA cable m0 m1 m2))
  | .usbmidiCinB cable m0 m1 m2 => bytesP 0x10#8 (packetBytes (.usbmidiCinB cable m0 m1 m2))
  | .usbmidiCinC cable m0 m1 m2 => bytesP 0x10#8 (packetBytes (.usbmidiCinC cable m0 m1 m2))
  | .usbmidiCinD cable m0 m1 m2 => bytesP 0x10#8 (packetBytes (.usbmidiCinD cable m0 m1 m2))
  | .usbmidiCinE cable m0 m1 m2 => bytesP 0x10#8 (packetBytes (.usbmidiCinE cable m0 m1 m2))
  | .usbmidiCinF cable m0 m1 m2 => bytesP 0x10#8 (packetBytes (.usbmidiCinF cable m0 m1 m2))
  | .midiCv3_8n ch rest => bytesL 0x31#8 (spanBytes (.midiCv3_8n ch rest))
  | .midiCv3_9n ch rest => bytesL 0x31#8 (spanBytes (.midiCv3_9n ch rest))
  | .midiCv3_An ch rest => bytesL 0x31#8 (spanBytes (.midiCv3_An ch rest))
  | .midiCv3_Bn ch rest => bytesL 0x31#8 (spanBytes (.midiCv3_Bn ch rest))
  | .midiCv2_Cn ch rest => bytesL 0x31#8 (spanBytes (.midiCv2_Cn ch rest))
  | .midiCv2_Dn ch rest => bytesL 0x31#8 (spanBytes (.midiCv2_Dn ch rest))
  | .midiCv3_En ch rest => bytesL 0x31#8 (spanBytes (.midiCv3_En ch rest))
  | .midiLeadingData d rest => bytesL 0x31#8 (spanBytes (.midiLeadingData d rest))
  | .midiSysex rest => bytesL 0x31#8 (spanBytes (.midiSysex rest))
  | .midiSc2_F1 rest => bytesL 0x31#8 (spanBytes (.midiSc2_F1 rest))
  | .midiSc3_F2 rest => bytesL 0x31#8 (spanBytes (.midiSc3_F2 rest))
  | .midiSc2_F3 rest => bytesL 0x31#8 (spanBytes (.midiSc2_F3 rest))
  | .midi1b_F4_F7 lo rest => bytesL 0x31#8 (spanBytes (.midi1b_F4_F7 lo rest))
  | .midiRt_F8_FF lo rest => bytesL 0x31#8 (spanBytes (.midiRt_F8_FF lo rest))

/-- The pseudo-instruction TX: encode, hand the bytes over, reset the offset (R99). -/
def pseudoTx (m : List Byte) : List Instr := [.encode m, .txTake, .txRelease]

/-! The opcode table's words. A word of a command row is the command's opcode byte. A word of a packet row is a
packet's byte 0, which reaches the block inside a DECODE; a word of a status row is a span's byte 0, which reaches
it inside an ENCODE_SINGLE. The table's numbers overlap (0x01 is QWRITE and CIN 1): a word that is an opcode is read
as one, then a word 0x00 to 0x0F as a packet, any other as a span (DESIGN CHOICE, safe: the log's entry 9). -/

/-- The assigned opcodes (R84). -/
def assignedOpcodes : List Byte :=
  [0x01#8, 0x02#8, 0x03#8, 0x04#8, 0x05#8, 0x10#8, 0x20#8, 0x21#8, 0x22#8, 0x30#8, 0x31#8, 0x32#8, 0x33#8, 0x7F#8]

/-- The span size that a first byte's class requires (R94). -/
def requiredSize (s : Byte) : Nat :=
  if s &&& 0xF0#8 ≠ 0xF0#8 then (if s &&& 0xF0#8 = 0xC0#8 ∨ s &&& 0xF0#8 = 0xD0#8 then 2 else 3)
  else if s = 0xF2#8 then 3
  else if s = 0xF1#8 ∨ s = 0xF3#8 then 2
  else 1

/-- The first `n` bytes of `bytes`, filled up with zeros. -/
def padTo (n : Nat) (bytes : List Byte) : List Byte := bytes.take n ++ List.replicate (n - bytes.length) 0x00#8

/-- The `nbits` bits of `w` as bytes, the first byte least significant. -/
def wordBytes (nbits w : Nat) : List Byte :=
  (List.range ((nbits + 7) / 8)).map (fun k => BitVec.ofNat 8 (w >>> (8 * k)))

/-- The port bytes that carry a table word, every bit above `nbits` zero; more bytes than the instruction has may
follow for a command row. -/
def carrierBytes (bytes : List Byte) : List Byte :=
  match bytes with
  | [] => []
  | b :: t =>
    if b ∈ assignedOpcodes then b :: t ++ [0x00#8, 0x00#8]
    else if b.toNat < 0x10 then bytesP 0x10#8 (padTo 4 (b :: t))
    else bytesL 0x31#8 (padTo (requiredSize b) (b :: t))

/-- The port bytes of exactly the instruction a table word stands for; all of the word's bytes where none decodes. -/
def tableWordBytes (nbits w : Nat) : List Byte :=
  let bytes := carrierBytes (wordBytes nbits w)
  match decodePort bytes with
  | .instr _ rest => bytes.take (bytes.length - rest.length)
  | _ => bytes

/-- The instruction the decoder reads from a table word. -/
def decodeTableWord (nbits w : Nat) : Option Instr :=
  match decodePort (tableWordBytes nbits w) with
  | .instr i _ => some i
  | _ => none

end Sys2Proof
end

