-- ==== Sys2Proof/Machine/Encoder.lean ====
section
/-! DEFINITION. The MIDI encoder (43_encoder.md): the packets of each class of span, the single-message encoder, the
top-level scan, and the commands and status rows over them. -/

namespace Sys2Proof.Machine

/-! The packets of each class (30_encoding.md R94), from the status byte `s` and the span's bytes `rest` after it. A
span of another size is dropped: it has no packet (R183 to R186). -/

/-- Channel voice of size 2 (R183). -/
def cv2Packets (s : Byte) (rest : List Byte) : List Packet :=
  match rest with
  | [d1] => [⟨cvCin s, s, d1, 0x00#8⟩]
  | _ => []

/-- Channel voice of size 3, a leading data byte included (R183, R192). -/
def cv3Packets (s : Byte) (rest : List Byte) : List Packet :=
  match rest with
  | [d1, d2] => [⟨cvCin s, s, d1, d2⟩]
  | _ => []

/-- System Common of size 3 (R184). -/
def sc3Packets (s : Byte) (rest : List Byte) : List Packet :=
  match rest with
  | [d1, d2] => [⟨0x03#8, s, d1, d2⟩]
  | _ => []

/-- System Common of size 2 (R185). -/
def sc2Packets (s : Byte) (rest : List Byte) : List Packet :=
  match rest with
  | [d1] => [⟨0x02#8, s, d1, 0x00#8⟩]
  | _ => []

/-- System Real-Time and 1-byte common (R186). -/
def oneBytePackets (s : Byte) (rest : List Byte) : List Packet :=
  match rest with
  | [] => [⟨0x05#8, s, 0x00#8, 0x00#8⟩]
  | _ => []

/-- SysEx framing (R187): full triples while more than 3 bytes are left, then the tail of 1, 2 or 3 bytes, padded. -/
def sysexPackets (m : List Byte) : List Packet :=
  match m with
  | [] => []
  | [a] => [⟨0x05#8, a, 0x00#8, 0x00#8⟩]
  | [a, b] => [⟨0x06#8, a, b, 0x00#8⟩]
  | [a, b, c] => [⟨0x07#8, a, b, c⟩]
  | a :: b :: c :: d :: rest => ⟨0x04#8, a, b, c⟩ :: sysexPackets (d :: rest)

/-- The packets `EncodeSingle(m)` emits, with the branches of R182's pseudocode, the plain `if` before the 0xF1/0xF3
test among them (R189). -/
def spanPackets (m : List Byte) : List Packet :=
  match m with
  | [] => []
  | s :: rest =>
    if s &&& 0xF0#8 ≠ 0xF0#8 then
      if s &&& 0xF0#8 = 0xC0#8 ∨ s &&& 0xF0#8 = 0xD0#8 then cv2Packets s rest else cv3Packets s rest
    else if s ≠ 0xF0#8 then
      (if s = 0xF2#8 then sc3Packets s rest else []) ++
      (if s = 0xF1#8 ∨ s = 0xF3#8 then sc2Packets s rest
       else if s.toNat ≥ 0xF4 then oneBytePackets s rest else [])
    else sysexPackets (s :: rest)

/-- A byte put at the head of the first of some spans. -/
def consHead (b : Byte) (sps : List (List Byte)) : List (List Byte) :=
  match sps with
  | [] => [[b]]
  | sp :: rest => (b :: sp) :: rest

/-- The spans of `Scan(m)`: the input cut before every status byte but the first byte (R190, R191). -/
def spans (m : List Byte) : List (List Byte) :=
  match m with
  | [] => []
  | [b] => [[b]]
  | b :: c :: rest => if isStatus c then [b] :: spans (c :: rest) else consHead b (spans (c :: rest))

/-- The packets `Scan(m)` emits: those of each span, in input order (R190). -/
def scanPackets (m : List Byte) : List Packet := (spans m).flatMap spanPackets

/-- ENCODE (R195). -/
def execEncode (m : List Byte) (s : State) : Out := command (emitPackets (scanPackets m)) s

/-- ENCODE_SINGLE (R193). -/
def execEncodeSingle (m : List Byte) (s : State) : Out := command (emitPackets (spanPackets m)) s

/-- Status 0x8n: channel voice of size 3, CIN 0x8 (R94, R183). -/
def execMidiCv3_8n (ch : Nibble) (rest : List Byte) (s : State) : Out :=
  command (emitPackets (cv3Packets (statusHead 0x8#4 ch) rest)) s

/-- Status 0x9n: channel voice of size 3, CIN 0x9 (R94, R183). -/
def execMidiCv3_9n (ch : Nibble) (rest : List Byte) (s : State) : Out :=
  command (emitPackets (cv3Packets (statusHead 0x9#4 ch) rest)) s

/-- Status 0xAn: channel voice of size 3, CIN 0xA (R94, R183). -/
def execMidiCv3_An (ch : Nibble) (rest : List Byte) (s : State) : Out :=
  command (emitPackets (cv3Packets (statusHead 0xA#4 ch) rest)) s

/-- Status 0xBn: channel voice of size 3, CIN 0xB (R94, R183). -/
def execMidiCv3_Bn (ch : Nibble) (rest : List Byte) (s : State) : Out :=
  command (emitPackets (cv3Packets (statusHead 0xB#4 ch) rest)) s

/-- Status 0xCn: channel voice of size 2, CIN 0xC (R94, R183). -/
def execMidiCv2_Cn (ch : Nibble) (rest : List Byte) (s : State) : Out :=
  command (emitPackets (cv2Packets (statusHead 0xC#4 ch) rest)) s

/-- Status 0xDn: channel voice of size 2, CIN 0xD (R94, R183). -/
def execMidiCv2_Dn (ch : Nibble) (rest : List Byte) (s : State) : Out :=
  command (emitPackets (cv2Packets (statusHead 0xD#4 ch) rest)) s

/-- Status 0xEn: channel voice of size 3, CIN 0xE (R94, R183). -/
def execMidiCv3_En (ch : Nibble) (rest : List Byte) (s : State) : Out :=
  command (emitPackets (cv3Packets (statusHead 0xE#4 ch) rest)) s

/-- A data byte in first position: the channel-voice 3-byte path (R192). -/
def execMidiLeadingData (d : BitVec 7) (rest : List Byte) (s : State) : Out :=
  command (emitPackets (cv3Packets (dataHead d) rest)) s

/-- Status 0xF0: SysEx, any size (R187). -/
def execMidiSysex (rest : List Byte) (s : State) : Out :=
  command (emitPackets (sysexPackets (0xF0#8 :: rest))) s

/-- Status 0xF1: System Common of size 2 (R185). -/
def execMidiSc2_F1 (rest : List Byte) (s : State) : Out :=
  command (emitPackets (sc2Packets 0xF1#8 rest)) s

/-- Status 0xF2: System Common of size 3 (R184). -/
def execMidiSc3_F2 (rest : List Byte) (s : State) : Out :=
  command (emitPackets (sc3Packets 0xF2#8 rest)) s

/-- Status 0xF3: System Common of size 2 (R185). -/
def execMidiSc2_F3 (rest : List Byte) (s : State) : Out :=
  command (emitPackets (sc2Packets 0xF3#8 rest)) s

/-- Status 0xF4 to 0xF7: one byte (R186). -/
def execMidi1b_F4_F7 (lo : BitVec 2) (rest : List Byte) (s : State) : Out :=
  command (emitPackets (oneBytePackets (oneByteHead lo) rest)) s

/-- Status 0xF8 to 0xFF: System Real-Time, one byte (R186). -/
def execMidiRt_F8_FF (lo : BitVec 3) (rest : List Byte) (s : State) : Out :=
  command (emitPackets (oneBytePackets (realTimeHead lo) rest)) s

end Sys2Proof.Machine
end

