-- ==== Sys2Proof/Machine/Queue.lean ====
section
/-! DEFINITION. The bounded byte queue commands (40_byte_queue.md). -/

namespace Sys2Proof.Machine

/-- QWRITE b (R121). -/
def execQwrite (b : Byte) (s : State) : Out :=
  command (fun s =>
    let r := queuePush s.params.rxqCapacity b s.q
    (s.withQ r.1).respond [pushResponse r.2]) s

/-- QREAD (R122): the fault QUEUE_EMPTY on an empty queue, with no response byte. -/
def execQread (s : State) : Out :=
  command (fun s =>
    match queuePop s.q with
    | none => s.raiseFault faultQueueEmpty
    | some (b, rest) => (s.withQ rest).respond [b]) s

/-- QFLUSH (R123). -/
def execQflush (s : State) : Out := command State.flushQ s

/-- QREADABLE (R124): the count, high byte first. -/
def execQreadable (s : State) : Out :=
  command (fun s => s.respond [highByte s.qCount, lowByte s.qCount]) s

/-- QISEMPTY (R125). -/
def execQisempty (s : State) : Out := command (fun s => s.respond [flagResponse s.q.isEmpty]) s

end Sys2Proof.Machine
end

