-- ==== Sys2Proof/Machine/RxControl.lean ====
section
/-! DEFINITION. The receive control commands (42_rx_control.md). -/

namespace Sys2Proof.Machine

/-- RX_ARM: flush the queue and arm the decoder (R160). -/
def execRxArm (s : State) : Out := command (fun s => s.flushQ.withRxActive true) s

/-- RX_FLUSH: flush the queue, RX_ACTIVE keeps its value (R161). -/
def execRxFlush (s : State) : Out := command State.flushQ s

/-- RX_ACTIVE: read the armed flag (R162). -/
def execRxActive (s : State) : Out := command (fun s => s.respond [flagResponse s.rxActive]) s

end Sys2Proof.Machine
end

