-- ==== Sys2Proof/Machine/Status.lean ====
section
/-! DEFINITION. STATUS (60_exceptions.md R247), the one command that runs in the faulted state too (R245). -/

namespace Sys2Proof.Machine

/-- STATUS: respond FAULT (R247). -/
def execStatus (s : State) : Out := .next (s.respond [s.fault])

end Sys2Proof.Machine
end

