-- ==== Sys2Proof/Machine/TxHandoff.lean ====
section
/-! DEFINITION. The transmit hand-off commands (44_tx_handoff.md). -/

namespace Sys2Proof.Machine

/-- TX_TAKE: respond TX_PTR, high byte first, then SCR (R220). -/
def execTxTake (s : State) : Out :=
  command (fun s => s.respond (highByte s.txPtr :: lowByte s.txPtr :: s.scr)) s

/-- TX_RELEASE: SCR <- [], TX_PTR <- 0 (R221). -/
def execTxRelease (s : State) : Out := command (fun s => s.withScr []) s

end Sys2Proof.Machine
end

