-- ==== Sys2Proof/Machine/Dispatch.lean ====
section
/-! DEFINITION. The dispatch: one arm per row of the opcode table, each one call of the row's meaning. -/

namespace Sys2Proof.Machine

/-- What an instruction does (30_encoding.md R84, R91, R94). -/
def exec (i : Instr) (s : State) : Host.Outcome State Fault Refusal :=
  match i with
  | .qwrite b => Sys2Proof.Machine.execQwrite b s
  | .qread => Sys2Proof.Machine.execQread s
  | .qflush => Sys2Proof.Machine.execQflush s
  | .qreadable => Sys2Proof.Machine.execQreadable s
  | .qisempty => Sys2Proof.Machine.execQisempty s
  | .decode p => Sys2Proof.Machine.execDecode p s
  | .rxArm => Sys2Proof.Machine.execRxArm s
  | .rxFlush => Sys2Proof.Machine.execRxFlush s
  | .rxActive => Sys2Proof.Machine.execRxActive s
  | .encode m => Sys2Proof.Machine.execEncode m s
  | .encodeSingle m => Sys2Proof.Machine.execEncodeSingle m s
  | .txTake => Sys2Proof.Machine.execTxTake s
  | .txRelease => Sys2Proof.Machine.execTxRelease s
  | .status => Sys2Proof.Machine.execStatus s
  | .usbmidiCin0 cable m0 m1 m2 => Sys2Proof.Machine.execUsbmidiCin0 cable m0 m1 m2 s
  | .usbmidiCin1 cable m0 m1 m2 => Sys2Proof.Machine.execUsbmidiCin1 cable m0 m1 m2 s
  | .usbmidiCin2 cable m0 m1 m2 => Sys2Proof.Machine.execUsbmidiCin2 cable m0 m1 m2 s
  | .usbmidiCin3 cable m0 m1 m2 => Sys2Proof.Machine.execUsbmidiCin3 cable m0 m1 m2 s
  | .usbmidiCin4 cable m0 m1 m2 => Sys2Proof.Machine.execUsbmidiCin4 cable m0 m1 m2 s
  | .usbmidiCin5 cable m0 m1 m2 => Sys2Proof.Machine.execUsbmidiCin5 cable m0 m1 m2 s
  | .usbmidiCin6 cable m0 m1 m2 => Sys2Proof.Machine.execUsbmidiCin6 cable m0 m1 m2 s
  | .usbmidiCin7 cable m0 m1 m2 => Sys2Proof.Machine.execUsbmidiCin7 cable m0 m1 m2 s
  | .usbmidiCin8 cable m0 m1 m2 => Sys2Proof.Machine.execUsbmidiCin8 cable m0 m1 m2 s
  | .usbmidiCin9 cable m0 m1 m2 => Sys2Proof.Machine.execUsbmidiCin9 cable m0 m1 m2 s
  | .usbmidiCinA cable m0 m1 m2 => Sys2Proof.Machine.execUsbmidiCinA cable m0 m1 m2 s
  | .usbmidiCinB cable m0 m1 m2 => Sys2Proof.Machine.execUsbmidiCinB cable m0 m1 m2 s
  | .usbmidiCinC cable m0 m1 m2 => Sys2Proof.Machine.execUsbmidiCinC cable m0 m1 m2 s
  | .usbmidiCinD cable m0 m1 m2 => Sys2Proof.Machine.execUsbmidiCinD cable m0 m1 m2 s
  | .usbmidiCinE cable m0 m1 m2 => Sys2Proof.Machine.execUsbmidiCinE cable m0 m1 m2 s
  | .usbmidiCinF cable m0 m1 m2 => Sys2Proof.Machine.execUsbmidiCinF cable m0 m1 m2 s
  | .midiCv3_8n ch rest => Sys2Proof.Machine.execMidiCv3_8n ch rest s
  | .midiCv3_9n ch rest => Sys2Proof.Machine.execMidiCv3_9n ch rest s
  | .midiCv3_An ch rest => Sys2Proof.Machine.execMidiCv3_An ch rest s
  | .midiCv3_Bn ch rest => Sys2Proof.Machine.execMidiCv3_Bn ch rest s
  | .midiCv2_Cn ch rest => Sys2Proof.Machine.execMidiCv2_Cn ch rest s
  | .midiCv2_Dn ch rest => Sys2Proof.Machine.execMidiCv2_Dn ch rest s
  | .midiCv3_En ch rest => Sys2Proof.Machine.execMidiCv3_En ch rest s
  | .midiLeadingData d rest => Sys2Proof.Machine.execMidiLeadingData d rest s
  | .midiSysex rest => Sys2Proof.Machine.execMidiSysex rest s
  | .midiSc2_F1 rest => Sys2Proof.Machine.execMidiSc2_F1 rest s
  | .midiSc3_F2 rest => Sys2Proof.Machine.execMidiSc3_F2 rest s
  | .midiSc2_F3 rest => Sys2Proof.Machine.execMidiSc2_F3 rest s
  | .midi1b_F4_F7 lo rest => Sys2Proof.Machine.execMidi1b_F4_F7 lo rest s
  | .midiRt_F8_FF lo rest => Sys2Proof.Machine.execMidiRt_F8_FF lo rest s

end Sys2Proof.Machine
end

