-- ==== Sys2Proof/Machine/Fetch.lean ====
section
/-! DEFINITION. What the command port does next (30_encoding.md R81, R86, R88; 60_exceptions.md R245). -/

namespace Sys2Proof.Machine

/-- What one step at the command port comes to. -/
inductive Fetched where
  /-- An instruction runs, in the state with its bytes consumed. -/
  | run (i : Instr) (s : State)
  /-- No instruction runs: the port holds, discards a byte or faults, and this is the state after. -/
  | settle (s : State)
  deriving DecidableEq, Repr

/-- The faulted port: a 0x7F byte runs STATUS, any other byte is discarded, one byte a step (R245). -/
def fetchFaulted (s : State) : Fetched :=
  match s.cmdPort with
  | [] => .settle s
  | b :: rest => if b = 0x7F#8 then .run .status (s.withCmdPort rest) else .settle (s.withCmdPort rest)

/-- The port while no fault has been taken: a complete command runs (R81), an incomplete one holds with no change
(R81), an unassigned opcode and a bad length take their faults (R86, R88). -/
def fetchRunning (s : State) : Fetched :=
  match decodePort s.cmdPort with
  | .instr i rest => .run i (s.withCmdPort rest)
  | .hold => .settle s
  | .illegalOpcode rest => .settle ((s.withCmdPort rest).raiseFault faultIllegalOpcode)
  | .badLength rest => .settle ((s.withCmdPort rest).raiseFault faultBadLength)

/-- What one step at the command port comes to. -/
def fetch (s : State) : Fetched := if s.faulted then fetchFaulted s else fetchRunning s

/-- The state with the port bytes of a table word put before the bytes already waiting. -/
def putFetchWord (s : State) (nbits w : Nat) : State := s.withCmdPort (tableWordBytes nbits w ++ s.cmdPort)

end Sys2Proof.Machine
end

