-- ==== Sys2Proof/Machine/Step.lean ====
section
/-! DEFINITION. One step of the block: "a command takes one step" (70_reset_and_hazards.md R281). -/

namespace Sys2Proof.Machine

/-- One step: the next complete command, or what the port does where none is complete (R81, R245). -/
def step (s : State) : Host.Outcome State Fault Refusal :=
  match fetch s with
  | .run i s' => exec i s'
  | .settle s' => .next s'

/-- The state in which the next step fetches and runs the instruction of a table word (the log's entries 9, 10). -/
def State.withFetchWord (s : State) (nbits w : Nat) : State := putFetchWord s nbits w

end Sys2Proof.Machine
end

