-- ==== Sys2Proof/Machine/Ring.lean ====
section
/-! DEFINITION. The ring-buffer view of the queue (10_state.md R21), with the writes that 40_byte_queue.md R121 to R123
give it. The state holds the sequence `Q` alone, which R21 calls exact; a statement says that this view refines it. -/

namespace Sys2Proof.Machine

/-- `Q_BUF`, `Q_RD` and `Q_COUNT` (R21). -/
structure Ring where
  /-- `Q_BUF[0..RXQ_CAPACITY-1]`. -/
  buf : List Byte
  /-- `Q_RD`, the read index. -/
  rd : Nat
  /-- `Q_COUNT`. -/
  count : Nat
  deriving DecidableEq, Repr

/-- The ranges of R21 for a capacity `cap`. -/
abbrev Ring.wf (cap : Nat) (r : Ring) : Prop := r.buf.length = cap ∧ r.rd < cap ∧ r.count ≤ cap

/-- `Q_WR = (Q_RD + Q_COUNT) mod RXQ_CAPACITY` (R21). -/
def Ring.wr (cap : Nat) (r : Ring) : Nat := (r.rd + r.count) % cap

/-- `Q = [Q_BUF[(Q_RD + i) mod RXQ_CAPACITY] for i in 0..Q_COUNT-1]` (R21). -/
def Ring.contents (cap : Nat) (r : Ring) : List Byte :=
  (List.range r.count).map (fun i => byteAt r.buf ((r.rd + i) % cap))

/-- `QPush` on the ring: `Q_BUF[Q_WR] <- b` (R121). -/
def Ring.push (cap : Nat) (b : Byte) (r : Ring) : Ring × PushResult :=
  if r.count = cap then (r, .overflow)
  else ({ r with buf := r.buf.set (r.wr cap) b, count := r.count + 1 }, .ok)

/-- `QPop` on the ring: the byte at `Q_RD`, then `Q_RD <- (Q_RD + 1) mod RXQ_CAPACITY` (R122). -/
def Ring.pop (cap : Nat) (r : Ring) : Option (Byte × Ring) :=
  if r.count = 0 then none
  else some (byteAt r.buf r.rd, { r with rd := (r.rd + 1) % cap, count := r.count - 1 })

/-- The flush on the ring: `Q_RD <- 0, Q_COUNT <- 0`, the storage not cleared (R123). -/
def Ring.flush (r : Ring) : Ring := { r with rd := 0, count := 0 }

end Sys2Proof.Machine
end

