-- ==== Sys2Proof/Machine/Environment.lean ====
section
/-! DEFINITION. What the host does to the block between steps (30_encoding.md R80, R83; 70_reset_and_hazards.md R270),
and commands run one after the other. No step of the block does any of the three. -/

namespace Sys2Proof.Machine

/-- The host writes bytes to the command port (R80). -/
def hostWrite (bytes : List Byte) (s : State) : State := { s with cmdPort := s.cmdPort ++ bytes }

/-- The host reads the oldest response byte, where there is one (R83). -/
def hostRead (s : State) : Option (Byte × State) :=
  match s.respPort with
  | [] => none
  | b :: rest => some (b, { s with respPort := rest })

/-- The host resets the block: every element at its reset value, whatever the state was, the parameters as they are:
"reset does not change them" (R270). -/
def hostReset (s : State) : State := { State.reset with params := s.params }

/-- The instructions of a list run in order, each seeing the effects of those before it (R61). -/
def execAll (is : List Instr) (s : State) : Out :=
  match is with
  | [] => .next s
  | i :: rest =>
    match exec i s with
    | .next s' => execAll rest s'
    | .fault r => .fault r
    | .refused r => .refused r

end Sys2Proof.Machine
end

