-- ==== Sys2Proof/Safety.lean ====
section
/-! DEFINITION. What counts as a safe state and a safe step, in the terms the statements use. -/

namespace Sys2Proof.Machine

/-- Every packet in a scratch buffer has the cable bits 7:4 of its byte 0 written 0 (30_encoding.md R93). -/
def cableBitsZero (scr : List Byte) : Prop := ∀ k, 4 * k < scr.length → (byteAt scr (4 * k)).toNat < 16

/-- The invariant of the block at every command boundary: the parameters in their ranges (00_scope.md R7, R8), the storages within their bounds and the scratch buffer in
whole packets (10_state.md R20, R23; 44_tx_handoff.md R224), the fault register at one of its codes (10_state.md R31;
60_exceptions.md R241), and the cable bits of every encoded packet 0 (30_encoding.md R93). -/
structure State.Inv (s : State) : Prop where
  params : s.params.wf
  storages : Memory.wf s
  code : s.fault ∈ faultCodes
  cable : cableBitsZero s.scr

/-- A message of 43_encoder.md R198: "a status byte followed by data bytes with bit 7 clear", SysEx of any length, any
other status of its required size. A SysEx message's closing 0xF7 is a message of its own. -/
def IsMessage (m : List Byte) : Prop :=
  ∃ s rest, m = s :: rest ∧ isStatus s = true ∧ (∀ b ∈ rest, isStatus b = false) ∧
    (s = 0xF0#8 ∨ m.length = requiredSize s)

/-- The DECODE command of a packet, as the row the port reads it as (R198: "DECODE of each emitted packet"). -/
def decodeOfPacket (p : Packet) : Instr := packetRow p.b0 p.b1 p.b2 p.b3

/-- How many response bytes an instruction gives on a block that is not faulted (30_encoding.md R84): QREAD gives none
where it faults (40_byte_queue.md R122). -/
def responseCount (i : Instr) (s : State) : Nat :=
  match i with
  | .qwrite _ => 1
  | .qread => if s.q = [] then 0 else 1
  | .qreadable => 2
  | .qisempty => 1
  | .rxActive => 1
  | .txTake => 2 + s.txPtr
  | .status => 1
  | _ => 0

/-- The instructions that may write the queue: QWRITE, DECODE, QREAD, QFLUSH, RX_ARM, RX_FLUSH (10_state.md R20, R31). -/
def writesQueue (i : Instr) : Bool :=
  match i with
  | .qwrite _ => true
  | .decode _ => true
  | .qread => true
  | .qflush => true
  | .rxArm => true
  | .rxFlush => true
  | _ => !(packetBytes i).isEmpty

/-- The encode commands: ENCODE and ENCODE_SINGLE, with the rows of its spans (10_state.md R31). -/
def isEncode (i : Instr) : Bool :=
  match i with
  | .encode _ => true
  | .encodeSingle _ => true
  | _ => !(spanBytes i).isEmpty

/-- The outcome is a next state: the block neither stops nor refuses (00_scope.md R17, 30_encoding.md R89). -/
def Goes (o : Out) : Prop := ∃ s, o = .next s

end Sys2Proof.Machine
end

