-- ==== Sys2Proof/Certificates/Slice0/Obligations.lean ====
section
/-! DEFINITION. The statements for the provers, file by file of spec/. A result statement writes the whole next state,
so it says what the instruction leaves unchanged too. -/

open Sys2Proof Sys2Proof.Machine

/-! The command port (30_encoding.md). -/

/-- A step runs the decoded instruction, in the state with the instruction's bytes consumed (R61, R81). That one step runs
one command of the waiting bytes is the model's choice (DESIGN CHOICE: log entry 4). -/
def Obligations.StepRunsDecoded : Prop :=
  ∀ (s : State) (i : Instr) (rest : List Byte), s.fault = 0x00#8 → i.WellFormed →
    decodePort s.cmdPort = .instr i rest → step s = exec i { s with cmdPort := rest }

/-- R81: a command executes once its last byte has arrived, and reset discards its bytes. Until the last byte has arrived
R81 says the block takes no step and changes no state; that the model's step then answers the same state is the model's
choice (DESIGN CHOICE: log entry 4). -/
def Obligations.IncompleteCommandHolds : Prop :=
  ∀ (s : State) (i : Instr), s.fault = 0x00#8 → i.WellFormed →
    (s.cmdPort = encodeInstr i → step s = exec i { s with cmdPort := [] }) ∧
    (∀ missing, missing ≠ [] → encodeInstr i = s.cmdPort ++ missing → step s = .next s) ∧
    (hostReset s).cmdPort = []

/-- Decoding the bytes of a well-formed instruction gives it back, with the bytes behind it. Which row a DECODE or an
ENCODE_SINGLE is read as is the model's choice (DESIGN CHOICE: log entry 1). -/
def Obligations.DecodeOfEncode : Prop :=
  ∀ (i : Instr) (rest : List Byte), i.WellFormed → decodePort (encodeInstr i ++ rest) = .instr i rest

/-- What decodes is well-formed, and its encoding is exactly the bytes it was read from. Which row a DECODE or an
ENCODE_SINGLE is read as is the model's choice (DESIGN CHOICE: log entry 1). -/
def Obligations.EncodeOfDecode : Prop :=
  ∀ (bytes : List Byte) (i : Instr) (rest : List Byte), decodePort bytes = .instr i rest →
    i.WellFormed ∧ encodeInstr i ++ rest = bytes

/-- Bytes that arrive later change nothing in what the port has already read (R61, R89). -/
def Obligations.LaterBytesKeepDecoding : Prop :=
  ∀ (bytes more rest : List Byte),
    (∀ i, decodePort bytes = .instr i rest → decodePort (bytes ++ more) = .instr i (rest ++ more)) ∧
    (decodePort bytes = .illegalOpcode rest → decodePort (bytes ++ more) = .illegalOpcode (rest ++ more)) ∧
    (decodePort bytes = .badLength rest → decodePort (bytes ++ more) = .badLength (rest ++ more))

/-- Words written out from the spec decode to the rows they stand for, one or more per family. R98 reads
`10 04 09 90 3C 7F` as the command DECODE of the packet 09 90 3C 7F; that the model reads it as the packet's row, CIN 0x9,
and `31 00 02 C0 05` as the span's row, status 0xCn, is the model's choice (DESIGN CHOICE: log entry 1). -/
def Obligations.SpecWordsDecode : Prop :=
  decodePort [0x01#8, 0x7F#8] = .instr (.qwrite 0x7F#8) [] ∧
  decodePort [0x10#8, 0x04#8, 0x09#8, 0x90#8, 0x3C#8, 0x7F#8] =
    .instr (.usbmidiCin9 0x0#4 0x90#8 0x3C#8 0x7F#8) [] ∧
  decodePort [0x10#8, 0x01#8, 0x09#8] = .instr (.decode [0x09#8]) [] ∧
  decodePort [0x20#8] = .instr .rxArm [] ∧
  decodePort [0x30#8, 0x00#8, 0x03#8, 0x90#8, 0x3C#8, 0x7F#8] = .instr (.encode [0x90#8, 0x3C#8, 0x7F#8]) [] ∧
  decodePort [0x31#8, 0x00#8, 0x02#8, 0xC0#8, 0x05#8] = .instr (.midiCv2_Cn 0x0#4 [0x05#8]) [] ∧
  decodePort [0x32#8, 0x33#8] = .instr .txTake [0x33#8] ∧
  decodePort [0x7F#8] = .instr .status []

/-- R86: a DECODE whose `len` exceeds 4 faults as soon as `len` arrives, and no packet byte is consumed. That one step
consumes the opcode and `len` is the model's choice (DESIGN CHOICE: log entry 12). -/
def Obligations.OverlongDecodeFaults : Prop :=
  ∀ (s : State) (len : Byte) (rest : List Byte), s.fault = 0x00#8 → 4 < len.toNat →
    s.cmdPort = 0x10#8 :: len :: rest → step s = .next { s with cmdPort := rest, fault := 0x04#8 }

/-- R88: the opcode bytes that are unassigned fault when they arrive, and every other opcode byte does not. That one step
consumes the opcode byte alone is the model's choice (DESIGN CHOICE: log entry 12). -/
def Obligations.UnassignedOpcodeFaults : Prop :=
  ∀ (s : State) (op : Byte) (rest : List Byte), s.fault = 0x00#8 → s.cmdPort = op :: rest →
    if op.toNat = 0x00 ∨ (0x06 ≤ op.toNat ∧ op.toNat ≤ 0x0F) ∨ (0x11 ≤ op.toNat ∧ op.toNat ≤ 0x1F) ∨
        (0x23 ≤ op.toNat ∧ op.toNat ≤ 0x2F) ∨ (0x34 ≤ op.toNat ∧ op.toNat ≤ 0x7E) ∨ 0x80 ≤ op.toNat
    then step s = .next { s with cmdPort := rest, fault := 0x03#8 }
    else ∀ t, step s = .next t → t.fault ≠ 0x03#8

/-- R84: every instruction gives exactly the number of response bytes of its row, behind those already there. -/
def Obligations.ResponseCounts : Prop :=
  ∀ (i : Instr) (s t : State), s.fault = 0x00#8 → exec i s = .next t →
    ∃ r, t.respPort = s.respPort ++ r ∧ r.length = responseCount i s

/-! The byte queue (40_byte_queue.md). -/

/-- R121: QWRITE pushes and responds 0x00, or finds the queue full and responds 0x01 with nothing else changed. -/
def Obligations.QwritePushesOrOverflows : Prop :=
  ∀ (s : State) (b : Byte), s.fault = 0x00#8 →
    (∀ rest, decodePort (0x01#8 :: b :: rest) = .instr (.qwrite b) rest) ∧
    (s.q.length ≠ s.params.rxqCapacity →
      exec (.qwrite b) s = .next { s with q := s.q ++ [b], respPort := s.respPort ++ [0x00#8] }) ∧
    (s.q.length = s.params.rxqCapacity →
      exec (.qwrite b) s = .next { s with respPort := s.respPort ++ [0x01#8] })

/-- R122: QREAD pops and responds the oldest byte, or faults QUEUE_EMPTY with no response byte. -/
def Obligations.QreadPopsOrFaults : Prop :=
  ∀ (s : State), s.fault = 0x00#8 →
    (∀ rest, decodePort (0x02#8 :: rest) = .instr .qread rest) ∧
    (∀ b rest, s.q = b :: rest →
      exec .qread s = .next { s with q := rest, respPort := s.respPort ++ [b] }) ∧
    (s.q = [] → exec .qread s = .next { s with fault := 0x01#8 })

/-- R123: QFLUSH empties the queue and changes nothing else; on the ring view it sets the read index and the count to 0
and keeps the storage. -/
def Obligations.QflushEmpties : Prop :=
  ∀ (s : State), s.fault = 0x00#8 →
    (∀ rest, decodePort (0x03#8 :: rest) = .instr .qflush rest) ∧
    exec .qflush s = .next { s with q := [] } ∧
    (∀ (cap : Nat) (r : Ring), r.flush.contents cap = [] ∧ r.flush.rd = 0 ∧ r.flush.count = 0 ∧ r.flush.buf = r.buf)

/-- R124: QREADABLE responds the count, high byte first, and changes nothing else; the two bytes are the count of any
queue that 16 bits count. -/
def Obligations.QreadableReportsCount : Prop :=
  ∀ (s : State), s.fault = 0x00#8 → s.q.length ≤ 65535 →
    (∀ rest, decodePort (0x04#8 :: rest) = .instr .qreadable rest) ∧
    ∃ hi lo : Byte, hi.toNat * 256 + lo.toNat = s.q.length ∧
      exec .qreadable s = .next { s with respPort := s.respPort ++ [hi, lo] }

/-- R125: QISEMPTY responds 0x01 of an empty queue and 0x00 of any other, and changes nothing else. -/
def Obligations.QisemptyTests : Prop :=
  ∀ (s : State), s.fault = 0x00#8 →
    (∀ rest, decodePort (0x05#8 :: rest) = .instr .qisempty rest) ∧
    exec .qisempty s =
      .next { s with respPort := s.respPort ++ [if s.q = [] then 0x01#8 else 0x00#8] }

/-- R120: bytes written with room stand behind those already queued, each with response 0x00; reading them all
responds them in order and leaves the queue empty. -/
def Obligations.QueueIsFifo : Prop :=
  ∀ (s : State) (bs : List Byte), s.fault = 0x00#8 → s.q.length + bs.length ≤ s.params.rxqCapacity →
    execAll (bs.map .qwrite) s =
      .next { s with q := s.q ++ bs, respPort := s.respPort ++ List.replicate bs.length 0x00#8 } ∧
    execAll (List.replicate s.q.length .qread) s = .next { s with q := [], respPort := s.respPort ++ s.q }

/-- R21, R120: the ring-buffer view refines the sequence `Q`, wherever its indices stand and however often they have
wrapped: push, pop and flush commute with the contents and keep the ranges of the indices. -/
def Obligations.RingRefinesQueue : Prop :=
  ∀ (cap : Nat) (r : Ring) (b : Byte), r.wf cap →
    ((r.push cap b).1.wf cap ∧
      ((r.push cap b).1.contents cap, (r.push cap b).2) = queuePush cap b (r.contents cap)) ∧
    (r.pop cap).map (fun x => (x.1, x.2.contents cap)) = queuePop (r.contents cap) ∧
    (∀ x, r.pop cap = some x → x.2.wf cap) ∧
    r.flush.wf cap ∧ r.flush.contents cap = [] ∧ r.flush.rd = 0 ∧ r.flush.buf = r.buf

/-! The decoder (41_decoder.md). -/

/-- R142, R140 step 1: a DECODE of fewer than 4 bytes changes nothing, and while disarmed no DECODE does. -/
def Obligations.ShortOrDisarmedDecodeIgnored : Prop :=
  ∀ (s : State) (p : List Byte),
    (p.length < 4 → exec (.decode p) s = .next s) ∧
    (s.rxActive = false → p.length ≤ 4 → exec (decodeRow p) s = .next s)

/-- R143: a packet of CIN 0x0 or 0x1 changes nothing, whatever its other bits and bytes. -/
def Obligations.ReservedCinsDiscarded : Prop :=
  ∀ (s : State) (cable : Nibble) (m0 m1 m2 : Byte),
    exec (.usbmidiCin0 cable m0 m1 m2) s = .next s ∧ exec (.usbmidiCin1 cable m0 m1 m2) s = .next s

/-- R91, R147: an armed decoder with enough free space appends exactly the payload of each CIN from 0x2 to 0xF. -/
def Obligations.PacketRowsEnqueue : Prop :=
  ∀ (s : State) (cable : Nibble) (m0 m1 m2 : Byte), s.fault = 0x00#8 → s.rxActive = true →
    (s.q.length + 1 ≤ s.params.rxqCapacity →
      exec (.usbmidiCin5 cable m0 m1 m2) s = .next { s with q := s.q ++ [m0] } ∧
      exec (.usbmidiCinF cable m0 m1 m2) s = .next { s with q := s.q ++ [m0] }) ∧
    (s.q.length + 2 ≤ s.params.rxqCapacity →
      exec (.usbmidiCin2 cable m0 m1 m2) s = .next { s with q := s.q ++ [m0, m1] } ∧
      exec (.usbmidiCin6 cable m0 m1 m2) s = .next { s with q := s.q ++ [m0, m1] } ∧
      exec (.usbmidiCinC cable m0 m1 m2) s = .next { s with q := s.q ++ [m0, m1] } ∧
      exec (.usbmidiCinD cable m0 m1 m2) s = .next { s with q := s.q ++ [m0, m1] }) ∧
    (s.q.length + 3 ≤ s.params.rxqCapacity →
      exec (.usbmidiCin3 cable m0 m1 m2) s = .next { s with q := s.q ++ [m0, m1, m2] } ∧
      exec (.usbmidiCin4 cable m0 m1 m2) s = .next { s with q := s.q ++ [m0, m1, m2] } ∧
      exec (.usbmidiCin7 cable m0 m1 m2) s = .next { s with q := s.q ++ [m0, m1, m2] } ∧
      exec (.usbmidiCin8 cable m0 m1 m2) s = .next { s with q := s.q ++ [m0, m1, m2] } ∧
      exec (.usbmidiCin9 cable m0 m1 m2) s = .next { s with q := s.q ++ [m0, m1, m2] } ∧
      exec (.usbmidiCinA cable m0 m1 m2) s = .next { s with q := s.q ++ [m0, m1, m2] } ∧
      exec (.usbmidiCinB cable m0 m1 m2) s = .next { s with q := s.q ++ [m0, m1, m2] } ∧
      exec (.usbmidiCinE cable m0 m1 m2) s = .next { s with q := s.q ++ [m0, m1, m2] })

/-- R140, R141: an armed DECODE of a whole packet, by the payload table: the payload is appended where it fits; where
it does not, the bytes that fit are, and the decoder is disarmed. -/
def Obligations.DecodeAppendsOrFailStops : Prop :=
  ∀ (s : State) (p0 m0 m1 m2 : Byte), s.fault = 0x00#8 → s.rxActive = true →
    s.q.length ≤ s.params.rxqCapacity → 2 ≤ (p0 &&& 0x0F#8).toNat →
    let size := [3, 3, 2, 3, 3, 1, 2, 3, 3, 3, 3, 3, 2, 2, 3, 1].getD (p0 &&& 0x0F#8).toNat 0
    let payload := [m0, m1, m2].take size
    exec (packetRow p0 m0 m1 m2) s = exec (.decode [p0, m0, m1, m2]) s ∧
    exec (.decode [p0, m0, m1, m2]) s =
      if s.q.length + size ≤ s.params.rxqCapacity then .next { s with q := s.q ++ payload }
      else .next { s with q := s.q ++ payload.take (s.params.rxqCapacity - s.q.length), rxActive := false }

/-- R141: after the fail-stop every packet is discarded, until RX_ARM arms the decoder again. -/
def Obligations.FailStopLastsUntilRxArm : Prop :=
  ∀ (s : State) (ps : List Packet), s.rxActive = false →
    execAll (ps.map decodeOfPacket) s = .next s ∧
    (s.fault = 0x00#8 → exec .rxArm s = .next { s with q := [], rxActive := true })

/-- R140, R91: the row of a packet does what DECODE of its 4 bytes does, in every state. -/
def Obligations.PacketRowsAreDecode : Prop :=
  ∀ (s : State) (p0 m0 m1 m2 : Byte), exec (packetRow p0 m0 m1 m2) s = exec (.decode [p0, m0, m1, m2]) s

/-- R144: two packets that differ only in bits 7:4 of byte 0 decode identically. -/
def Obligations.CableBitsNotRead : Prop :=
  ∀ (s : State) (p0 p0' m0 m1 m2 : Byte), p0 &&& 0x0F#8 = p0' &&& 0x0F#8 →
    exec (packetRow p0 m0 m1 m2) s = exec (packetRow p0' m0 m1 m2) s

/-- R145: bytes past the payload are never read: packets that agree on byte 0 and the payload do the same. -/
def Obligations.BytesPastPayloadNotRead : Prop :=
  ∀ (s : State) (p0 m0 m1 m2 n0 n1 n2 : Byte),
    [m0, m1, m2].take (payloadSize (cinOf p0)) = [n0, n1, n2].take (payloadSize (cinOf p0)) →
    exec (packetRow p0 m0 m1 m2) s = exec (packetRow p0 n0 n1 n2) s

/-! Receive control (42_rx_control.md). -/

/-- R160: RX_ARM empties the queue and arms the decoder, and no other instruction arms a disarmed one. -/
def Obligations.RxArmFlushesAndArms : Prop :=
  ∀ (s : State), s.fault = 0x00#8 →
    (∀ rest, decodePort (0x20#8 :: rest) = .instr .rxArm rest) ∧
    exec .rxArm s = .next { s with q := [], rxActive := true } ∧
    (∀ (i : Instr) (t : State), s.rxActive = false → exec i s = .next t → t.rxActive = true → i = .rxArm)

/-- R161: RX_FLUSH empties the queue and leaves RX_ACTIVE as it is; inside the block it does what QFLUSH does. -/
def Obligations.RxFlushKeepsArmed : Prop :=
  ∀ (s : State), s.fault = 0x00#8 →
    (∀ rest, decodePort (0x21#8 :: rest) = .instr .rxFlush rest) ∧
    exec .rxFlush s = .next { s with q := [] } ∧ exec .rxFlush s = exec .qflush s

/-- R162: RX_ACTIVE responds 0x01 armed, 0x00 disarmed, and changes nothing else. -/
def Obligations.RxActiveReports : Prop :=
  ∀ (s : State), s.fault = 0x00#8 →
    (∀ rest, decodePort (0x22#8 :: rest) = .instr .rxActive rest) ∧
    exec .rxActive s =
      .next { s with respPort := s.respPort ++ [if s.rxActive = true then 0x01#8 else 0x00#8] }

/-- R22, R141: only RX_ARM sets RX_ACTIVE, and only a DECODE of a packet of CIN 0x2 to 0xF whose payload does not fit
clears it, with the queue full after it; a packet that exactly fills the queue does not disarm. -/
def Obligations.OnlyArmAndFailStopWriteRxActive : Prop :=
  ∀ (i : Instr) (s t : State), exec i s = .next t → t.rxActive ≠ s.rxActive →
    (i = .rxArm ∧ t.rxActive = true) ∨
    (∃ p0 m0 m1 m2 : Byte, (i = .decode [p0, m0, m1, m2] ∨ i = packetRow p0 m0 m1 m2) ∧
      2 ≤ (p0 &&& 0x0F#8).toNat ∧ s.params.rxqCapacity < s.q.length + payloadSize (cinOf p0) ∧
      t.rxActive = false ∧ t.q.length = s.params.rxqCapacity)

/-! The encoder (43_encoder.md). -/

/-- R195, R193, R180: with room in the scratch buffer, ENCODE appends the packets of the scan and ENCODE_SINGLE those
of the span, behind what is there. -/
def Obligations.EncodeAppendsPackets : Prop :=
  ∀ (s : State) (m : List Byte), s.fault = 0x00#8 →
    (s.scr.length + 4 * (scanPackets m).length ≤ s.params.txScratchBytes →
      exec (.encode m) s = .next { s with scr := s.scr ++ packetsBytes (scanPackets m) }) ∧
    (s.scr.length + 4 * (spanPackets m).length ≤ s.params.txScratchBytes →
      exec (.encodeSingle m) s = .next { s with scr := s.scr ++ packetsBytes (spanPackets m) })

/-- R181, R199: where the packets do not all fit, those that fit stay, the first that does not is not written, and
the block takes SCRATCH_OVERFLOW. -/
def Obligations.ScratchOverflowKeepsEarlierPackets : Prop :=
  ∀ (s : State) (m : List Byte), s.fault = 0x00#8 → s.scr.length ≤ s.params.txScratchBytes →
    let fit := (s.params.txScratchBytes - s.scr.length) / 4
    (fit < (scanPackets m).length →
      exec (.encode m) s =
        .next { s with scr := s.scr ++ packetsBytes ((scanPackets m).take fit), fault := 0x02#8 }) ∧
    (fit < (spanPackets m).length →
      exec (.encodeSingle m) s =
        .next { s with scr := s.scr ++ packetsBytes ((spanPackets m).take fit), fault := 0x02#8 })

/-- R183: the channel-voice rows emit one packet of their CIN for a span of the required size, with the status byte
and data unchanged, and drop a span of any other size. -/
def Obligations.ChannelVoiceRows : Prop :=
  ∀ (s : State) (ch : Nibble), s.fault = 0x00#8 →
    (∀ d1 d2 : Byte, s.scr.length + 4 ≤ s.params.txScratchBytes →
      exec (.midiCv3_8n ch [d1, d2]) s = .next { s with scr := s.scr ++ [0x08#8, 0x8#4 ++ ch, d1, d2] } ∧
      exec (.midiCv3_9n ch [d1, d2]) s = .next { s with scr := s.scr ++ [0x09#8, 0x9#4 ++ ch, d1, d2] } ∧
      exec (.midiCv3_An ch [d1, d2]) s = .next { s with scr := s.scr ++ [0x0A#8, 0xA#4 ++ ch, d1, d2] } ∧
      exec (.midiCv3_Bn ch [d1, d2]) s = .next { s with scr := s.scr ++ [0x0B#8, 0xB#4 ++ ch, d1, d2] } ∧
      exec (.midiCv3_En ch [d1, d2]) s = .next { s with scr := s.scr ++ [0x0E#8, 0xE#4 ++ ch, d1, d2] } ∧
      exec (.midiCv2_Cn ch [d1]) s = .next { s with scr := s.scr ++ [0x0C#8, 0xC#4 ++ ch, d1, 0x00#8] } ∧
      exec (.midiCv2_Dn ch [d1]) s = .next { s with scr := s.scr ++ [0x0D#8, 0xD#4 ++ ch, d1, 0x00#8] }) ∧
    (∀ rest : List Byte,
      (rest.length ≠ 2 →
        exec (.midiCv3_8n ch rest) s = .next s ∧ exec (.midiCv3_9n ch rest) s = .next s ∧
        exec (.midiCv3_An ch rest) s = .next s ∧ exec (.midiCv3_Bn ch rest) s = .next s ∧
        exec (.midiCv3_En ch rest) s = .next s) ∧
      (rest.length ≠ 1 →
        exec (.midiCv2_Cn ch rest) s = .next s ∧ exec (.midiCv2_Dn ch rest) s = .next s))

/-- R184: status 0xF2 emits `[0x03, status, d1, d2]` for a span of 3 bytes and drops any other size. -/
def Obligations.SystemCommon3Row : Prop :=
  ∀ (s : State), s.fault = 0x00#8 →
    (∀ d1 d2 : Byte, s.scr.length + 4 ≤ s.params.txScratchBytes →
      exec (.midiSc3_F2 [d1, d2]) s = .next { s with scr := s.scr ++ [0x03#8, 0xF2#8, d1, d2] }) ∧
    (∀ rest : List Byte, rest.length ≠ 2 → exec (.midiSc3_F2 rest) s = .next s)

/-- R185: status 0xF1 and 0xF3 emit `[0x02, status, d1, 0]` for a span of 2 bytes and drop any other size. -/
def Obligations.SystemCommon2Rows : Prop :=
  ∀ (s : State), s.fault = 0x00#8 →
    (∀ d1 : Byte, s.scr.length + 4 ≤ s.params.txScratchBytes →
      exec (.midiSc2_F1 [d1]) s = .next { s with scr := s.scr ++ [0x02#8, 0xF1#8, d1, 0x00#8] } ∧
      exec (.midiSc2_F3 [d1]) s = .next { s with scr := s.scr ++ [0x02#8, 0xF3#8, d1, 0x00#8] }) ∧
    (∀ rest : List Byte, rest.length ≠ 1 →
      exec (.midiSc2_F1 rest) s = .next s ∧ exec (.midiSc2_F3 rest) s = .next s)

/-- R186: status 0xF4 to 0xFF, 0xF7 among them, emits `[0x05, status, 0, 0]` for a span of 1 byte and drops any other
size. -/
def Obligations.OneByteRows : Prop :=
  ∀ (s : State) (lo2 : BitVec 2) (lo3 : BitVec 3), s.fault = 0x00#8 →
    (s.scr.length + 4 ≤ s.params.txScratchBytes →
      exec (.midi1b_F4_F7 lo2 []) s =
        .next { s with scr := s.scr ++ [0x05#8, BitVec.ofNat 8 (0xF4 + lo2.toNat), 0x00#8, 0x00#8] } ∧
      exec (.midiRt_F8_FF lo3 []) s =
        .next { s with scr := s.scr ++ [0x05#8, BitVec.ofNat 8 (0xF8 + lo3.toNat), 0x00#8, 0x00#8] }) ∧
    (∀ rest : List Byte, rest ≠ [] →
      exec (.midi1b_F4_F7 lo2 rest) s = .next s ∧ exec (.midiRt_F8_FF lo3 rest) s = .next s)

/-- R192: a span of 3 bytes that starts with the data byte d emits `[d >> 4, d, m[1], m[2]]`, one of any other size is
dropped; ENCODE of a buffer with no status byte at all is that one span. -/
def Obligations.LeadingDataRow : Prop :=
  ∀ (s : State) (d : BitVec 7), s.fault = 0x00#8 →
    (∀ d1 d2 : Byte, s.scr.length + 4 ≤ s.params.txScratchBytes →
      exec (.midiLeadingData d [d1, d2]) s =
        .next { s with scr := s.scr ++ [BitVec.ofNat 8 (d.toNat / 16), BitVec.ofNat 8 d.toNat, d1, d2] }) ∧
    (∀ rest : List Byte, rest.length ≠ 2 → exec (.midiLeadingData d rest) s = .next s) ∧
    (∀ rest : List Byte, (∀ b ∈ rest, isStatus b = false) →
      exec (.encode (BitVec.ofNat 8 d.toNat :: rest)) s = exec (.midiLeadingData d rest) s)

/-- R187: a SysEx span of n bytes is k = (n - 1) div 3 full triples of CIN 0x04 and one terminal packet of CIN
0x05 + (r - 1) with the tail of r = n - 3k bytes, zero-padded; no byte but the head is tested. -/
def Obligations.SysexFraming : Prop :=
  ∀ (rest : List Byte),
    let m := 0xF0#8 :: rest
    let k := (m.length - 1) / 3
    let r := m.length - 3 * k
    1 ≤ r ∧ r ≤ 3 ∧
    spanPackets m =
      (List.range k).map (fun c => Packet.mk 0x04#8 (m.getD (3 * c) 0) (m.getD (3 * c + 1) 0) (m.getD (3 * c + 2) 0)) ++
      [⟨BitVec.ofNat 8 (5 + (r - 1)), m.getD (3 * k) 0,
        if 2 ≤ r then m.getD (3 * k + 1) 0 else 0x00#8, if r = 3 then m.getD (3 * k + 2) 0 else 0x00#8⟩]

/-- R187, R193: with room for its packets a SysEx span appends them, ceil(n / 3) of them. -/
def Obligations.SysexRowAppends : Prop :=
  ∀ (s : State) (rest : List Byte), s.fault = 0x00#8 →
    s.scr.length + 4 * ((rest.length + 3) / 3) ≤ s.params.txScratchBytes →
    (spanPackets (0xF0#8 :: rest)).length = (rest.length + 3) / 3 ∧
    exec (.midiSysex rest) s = .next { s with scr := s.scr ++ packetsBytes (spanPackets (0xF0#8 :: rest)) }

/-- R193, R96: the row of a span does what ENCODE_SINGLE of its bytes does, in every state, for each of the 256
values of the first byte. -/
def Obligations.StatusRowsAreEncodeSingle : Prop :=
  ∀ (s : State) (b : Byte) (rest : List Byte), exec (classRow b rest) s = exec (.encodeSingle (b :: rest)) s

/-- R188, R195: an empty span and an empty input emit nothing and change no state. -/
def Obligations.EmptyInputIsNoOp : Prop :=
  ∀ (s : State), exec (.encodeSingle []) s = .next s ∧ exec (.encode []) s = .next s

/-- R189: a span that is no SysEx span emits at most one packet, whatever its status byte and size. -/
def Obligations.AtMostOnePacketPerSpan : Prop :=
  ∀ (b : Byte) (rest : List Byte), b ≠ 0xF0#8 → (spanPackets (b :: rest)).length ≤ 1

/-- R190, R195: one turn of the scan's loop. The first span is the head and the data bytes up to the next status byte, and
the scan goes on at that byte. ENCODE does, in every state, what ENCODE_SINGLE of that span and then ENCODE of the rest
do, so a dropped span does not stop the scan. Where the span takes SCRATCH_OVERFLOW, that ENCODE of the rest then changes
nothing is exec in a faulted state (DEDUCED: log entry 7). -/
def Obligations.ScanTakesUpToNextStatus : Prop :=
  ∀ (b : Byte) (rest : List Byte),
    let span := b :: rest.takeWhile (fun c => !isStatus c)
    let after := rest.dropWhile (fun c => !isStatus c)
    spans (b :: rest) = span :: spans after ∧
    ∀ s : State, exec (.encode (b :: rest)) s = execAll [.encodeSingle span, .encode after] s

/-- R190, R191: the spans are the input in order, none is empty, no status byte stands inside one, and every span but
the first starts with a status byte. -/
def Obligations.ScanPartitionsInput : Prop :=
  ∀ (m : List Byte), (spans m).flatten = m ∧
    (∀ sp ∈ spans m, ∃ b rest, sp = b :: rest ∧ ∀ c ∈ rest, isStatus c = false) ∧
    (∀ sp ∈ (spans m).tail, ∃ b rest, sp = b :: rest ∧ isStatus b = true)

/-- R194: a channel-voice buffer that omits repeated status bytes is one span of the wrong size: ENCODE drops it. -/
def Obligations.RunningStatusDropped : Prop :=
  ∀ (s : State) (b : Byte) (rest : List Byte), b &&& 0xF0#8 ≠ 0xF0#8 →
    (∀ c ∈ rest, isStatus c = false) → rest.length + 1 ≠ requiredSize b →
    exec (.encode (b :: rest)) s = .next s

/-- R277: n bytes give at most n packets under ENCODE, and under ENCODE_SINGLE at most ceil(n / 3). -/
def Obligations.EncodeOutputBound : Prop :=
  ∀ (m : List Byte), (scanPackets m).length ≤ m.length ∧ (spanPackets m).length ≤ (m.length + 2) / 3

/-- R198: ENCODE of a concatenation of messages, then DECODE of each emitted packet in order, with RX_ACTIVE = 1 and
room in both storages, appends exactly the input to the queue. That the DECODE of a packet is run as the packet's row is
the model's choice (DESIGN CHOICE: log entry 1). -/
def Obligations.EncodeThenDecodeRoundTrip : Prop :=
  ∀ (s : State) (msgs : List (List Byte)), (∀ m ∈ msgs, IsMessage m) → s.fault = 0x00#8 → s.rxActive = true →
    s.q.length + msgs.flatten.length ≤ s.params.rxqCapacity →
    s.scr.length + 4 * (scanPackets msgs.flatten).length ≤ s.params.txScratchBytes →
    ∃ t, exec (.encode msgs.flatten) s = .next t ∧
      t.scr = s.scr ++ packetsBytes (scanPackets msgs.flatten) ∧
      execAll ((scanPackets msgs.flatten).map decodeOfPacket) t = .next { t with q := s.q ++ msgs.flatten }

/-! The hand-off (44_tx_handoff.md). -/

/-- R220: TX_TAKE responds TX_PTR, high byte first, then SCR, and changes nothing else; the two bytes are the offset
of any scratch buffer that 16 bits count. -/
def Obligations.TxTakeRespondsScratch : Prop :=
  ∀ (s : State), s.fault = 0x00#8 → s.scr.length ≤ 65535 →
    (∀ rest, decodePort (0x32#8 :: rest) = .instr .txTake rest) ∧
    ∃ hi lo : Byte, hi.toNat * 256 + lo.toNat = s.scr.length ∧
      exec .txTake s = .next { s with respPort := s.respPort ++ hi :: lo :: s.scr }

/-- R221: TX_RELEASE empties the scratch buffer and changes nothing else. -/
def Obligations.TxReleaseEmptiesScratch : Prop :=
  ∀ (s : State), s.fault = 0x00#8 →
    (∀ rest, decodePort (0x33#8 :: rest) = .instr .txRelease rest) ∧
    exec .txRelease s = .next { s with scr := [] }

/-- R222, R180: two encodes with no TX_RELEASE between append to the same scratch buffer. -/
def Obligations.EncodesAccumulate : Prop :=
  ∀ (s : State) (m n : List Byte), s.fault = 0x00#8 →
    s.scr.length + 4 * ((scanPackets m).length + (scanPackets n).length) ≤ s.params.txScratchBytes →
    execAll [.encode m, .encode n] s =
      .next { s with scr := s.scr ++ packetsBytes (scanPackets m) ++ packetsBytes (scanPackets n) }

/-- R99: TX from an empty scratch buffer responds the length and the packets of the input, and leaves the scratch
buffer empty again. -/
def Obligations.TxSendsAndReleases : Prop :=
  ∀ (s : State) (m : List Byte), s.params.wf → s.fault = 0x00#8 → s.scr = [] →
    4 * (scanPackets m).length ≤ s.params.txScratchBytes →
    ∃ hi lo : Byte, hi.toNat * 256 + lo.toNat = 4 * (scanPackets m).length ∧
      execAll (pseudoTx m) s =
        .next { s with respPort := s.respPort ++ hi :: lo :: packetsBytes (scanPackets m) }

/-! Faults and STATUS (60_exceptions.md). -/

/-- R247: STATUS responds FAULT, 0x00 outside the faulted state, and changes nothing else, faulted or not. -/
def Obligations.StatusReportsFault : Prop :=
  ∀ (s : State), (∀ rest, decodePort (0x7F#8 :: rest) = .instr .status rest) ∧
    exec .status s = .next { s with respPort := s.respPort ++ [s.fault] }

/-- R245: in the faulted state the byte 0x7F runs STATUS, any other byte is discarded, and only reset leaves it. Three
clauses are the model's own: one step consumes one byte (DESIGN CHOICE: log entry 12), a step with no byte waiting answers
the same state (DESIGN CHOICE: log entry 4), and exec of every instruction but STATUS answers the same state (DEDUCED from
R245: log entry 7). -/
def Obligations.FaultedStateRunsStatusOnly : Prop :=
  ∀ (s : State), s.fault ≠ 0x00#8 →
    (∀ rest, s.cmdPort = 0x7F#8 :: rest →
      step s = .next { s with cmdPort := rest, respPort := s.respPort ++ [s.fault] }) ∧
    (∀ b rest, b ≠ 0x7F#8 → s.cmdPort = b :: rest → step s = .next { s with cmdPort := rest }) ∧
    (s.cmdPort = [] → step s = .next s) ∧
    (∀ i, i ≠ .status → exec i s = .next s) ∧
    (hostReset s).fault = 0x00#8

/-- R245, R246: no step of a faulted block changes the queue, the armed flag, the scratch buffer or the first
fault's code. -/
def Obligations.FaultedStepKeepsState : Prop :=
  ∀ (s t : State), s.fault ≠ 0x00#8 → step s = .next t →
    t.q = s.q ∧ t.rxActive = s.rxActive ∧ t.scr = s.scr ∧ t.fault = s.fault

/-- R248: each instruction has at most one fault cause. That exec of a DECODE of more than 4 bytes, which no port bytes give,
takes BAD_LENGTH is the model's (DEDUCED: log entry 8). -/
def Obligations.OneFaultCausePerCommand : Prop :=
  ∀ (i : Instr) (s t : State), s.fault = 0x00#8 → exec i s = .next t → t.fault ≠ 0x00#8 →
    (i = .qread ∧ s.q = [] ∧ t.fault = 0x01#8) ∨
    (isEncode i = true ∧ t.fault = 0x02#8) ∨
    (∃ p, i = .decode p ∧ 4 < p.length ∧ t.fault = 0x04#8)

/-- R58: the reads have no side effect, and issued twice they give the same response twice. -/
def Obligations.ReadsAreIdempotent : Prop :=
  ∀ (s : State) (i : Instr), i ∈ [Instr.txTake, .qreadable, .qisempty, .rxActive, .status] →
    ∃ r, exec i s = .next { s with respPort := s.respPort ++ r } ∧
      execAll [i, i] s = .next { s with respPort := s.respPort ++ r ++ r }

/-! The whole machine. -/

/-- R20, R23, R31: the queue is written only by its writers, the scratch buffer only by the encode commands and
TX_RELEASE, and no instruction takes bytes from the command port. -/
def Obligations.OnlyWritersWriteStorages : Prop :=
  ∀ (i : Instr) (s t : State), exec i s = .next t →
    (t.q ≠ s.q → writesQueue i = true) ∧
    (t.scr ≠ s.scr → isEncode i = true ∨ i = .txRelease) ∧
    t.cmdPort = s.cmdPort

/-- The model's step is total: every exec and every step answers a next state, in any state, on any bytes. This is the
model's choice, not a rule: taking a fault is a next state and the model's fault outcome never occurs (DEDUCED: log entry
6), and holding for more bytes is a next state, where R81 says that no step is taken (DESIGN CHOICE: log entry 4). It
rests on R244 and R245, by which a faulted block goes on, and on R89, by which every byte sequence is decoded. -/
def Obligations.NothingStopsTheBlock : Prop :=
  (∀ (i : Instr) (s : State), Goes (exec i s)) ∧ (∀ (s : State), Goes (step s))

/-- R20, R23, R31, R93, R224: every step keeps the invariant, from every state that has it. -/
def Obligations.StepKeepsInv : Prop :=
  ∀ (s t : State), s.Inv → step s = .next t → t.Inv

/-- The reset state has the invariant. Its parameters are opaque constants within the ranges of R7 and R8 (DESIGN CHOICE:
log entry 2). -/
def Obligations.ResetHasInv : Prop := State.reset.Inv

/-- R270: whatever the state was, reset leaves both ports empty, the queue empty, the decoder disarmed, the scratch
buffer empty and no fault. -/
def Obligations.ResetClearsEverything : Prop :=
  ∀ (s : State), (hostReset s).q = [] ∧ (hostReset s).rxActive = false ∧ (hostReset s).scr = [] ∧
    (hostReset s).txPtr = 0 ∧ (hostReset s).fault = 0x00#8 ∧ (hostReset s).cmdPort = [] ∧
    (hostReset s).respPort = [] ∧ (hostReset s).params = s.params

/-- R7, R8, R270: the reset state's two open parameters lie in the ranges the spec gives them, and no instruction and
no step changes an instance's parameters. That the parameters stand in the state, and are opaque constants at reset, is
the model's choice (DESIGN CHOICE: log entry 2). -/
def Obligations.ParametersStayInRange : Prop :=
  State.reset.params.wf ∧ (∀ (i : Instr) (s t : State), exec i s = .next t → t.params = s.params) ∧
    (∀ (s t : State), step s = .next t → t.params = s.params)
end

