-- ==== Sys2Proof/Laws/Decode.lean ====
section
/-! SUPPORT. The fields of head bytes, put together and taken apart, and what each command format reads. -/

namespace Sys2Proof

/-! Head bytes (30_encoding.md R90, R94). -/

theorem packetHead_cin (cable cin : Nibble) : packetHead cable cin &&& 0x0F#8 = cin.setWidth 8 := by
  revert cable cin; decide

theorem packetHead_cable (cable cin : Nibble) : (packetHead cable cin).extractLsb' 4 4 = cable := by
  revert cable cin; decide

theorem packetHead_fields (b : Byte) : packetHead (b.extractLsb' 4 4) (b.extractLsb' 0 4) = b := by
  revert b; decide

theorem statusHead_kind (kind ch : Nibble) : statusHead kind ch &&& 0xF0#8 = packetHead kind 0x0#4 := by
  revert kind ch; decide

theorem statusHead_channel (kind ch : Nibble) : (statusHead kind ch).extractLsb' 0 4 = ch := by
  revert kind ch; decide

theorem statusHead_bit7 (kind ch : Nibble) : statusHead kind ch &&& 0x80#8 = packetHead (kind &&& 0x8#4) 0x0#4 := by
  revert kind ch; decide

theorem dataHead_bit7 (d : BitVec 7) : dataHead d &&& 0x80#8 = 0x00#8 := by revert d; decide

theorem dataHead_field (d : BitVec 7) : (dataHead d).extractLsb' 0 7 = d := by revert d; decide

theorem classRow_oneByte (lo : BitVec 2) (rest : List Byte) :
    classRow (oneByteHead lo) rest = .midi1b_F4_F7 lo rest := by
  have h : ∀ lo : BitVec 2, lo = 0 ∨ lo = 1 ∨ lo = 2 ∨ lo = 3 := by decide
  rcases h lo with rfl | rfl | rfl | rfl <;> simp [classRow, oneByteHead]

theorem classRow_realTime (lo : BitVec 3) (rest : List Byte) :
    classRow (realTimeHead lo) rest = .midiRt_F8_FF lo rest := by
  have h : ∀ lo : BitVec 3, lo = 0 ∨ lo = 1 ∨ lo = 2 ∨ lo = 3 ∨ lo = 4 ∨ lo = 5 ∨ lo = 6 ∨ lo = 7 := by decide
  rcases h lo with rfl | rfl | rfl | rfl | rfl | rfl | rfl | rfl <;> simp [classRow, realTimeHead]

theorem statusHead_fields (kind : Nibble) (s : Byte) (h : s &&& 0xF0#8 = packetHead kind 0x0#4) :
    statusHead kind (s.extractLsb' 0 4) = s := by
  have hk : kind = s.extractLsb' 4 4 := by
    have hm : ∀ s : Byte, (s &&& 0xF0#8).extractLsb' 4 4 = s.extractLsb' 4 4 := by decide
    rw [← packetHead_cable kind 0x0#4, ← h, hm]
  subst hk; exact packetHead_fields s

theorem dataHead_fields (s : Byte) (h : s &&& 0x80#8 = 0x00#8) : dataHead (s.extractLsb' 0 7) = s := by
  revert h; revert s; decide

theorem oneByteHead_fields (s : Byte) (h : s &&& 0xFC#8 = 0xF4#8) : oneByteHead (s.extractLsb' 0 2) = s := by
  revert h; revert s; decide

/-- A choice is `x` where both of its branches are. -/
theorem ite_eq_both {α : Type} {c : Prop} [Decidable c] {a b x : α} (ht : c → a = x) (hf : ¬c → b = x) :
    (if c then a else b) = x := by
  by_cases h : c
  · rw [if_pos h]; exact ht h
  · rw [if_neg h]; exact hf h

/-- The bytes of a span's row are the span it was read from (R94). -/
theorem spanBytes_classRow (s : Byte) (rest : List Byte) : spanBytes (classRow s rest) = s :: rest := by
  have whole : ∀ s : Byte, s &&& 0xFF#8 = s := by decide
  have lastClass : ∀ s : Byte, (s &&& 0x80#8 = 0x00#8 ∨ s &&& 0xF0#8 = 0x80#8 ∨ s &&& 0xF0#8 = 0x90#8 ∨
      s &&& 0xF0#8 = 0xA0#8 ∨ s &&& 0xF0#8 = 0xB0#8 ∨ s &&& 0xF0#8 = 0xC0#8 ∨ s &&& 0xF0#8 = 0xD0#8 ∨
      s &&& 0xF0#8 = 0xE0#8 ∨ s &&& 0xFF#8 = 0xF0#8 ∨ s &&& 0xFF#8 = 0xF1#8 ∨ s &&& 0xFF#8 = 0xF2#8 ∨
      s &&& 0xFF#8 = 0xF3#8 ∨ s &&& 0xFC#8 = 0xF4#8) ∨ realTimeHead (s.extractLsb' 0 3) = s := by decide
  simp only [classRow, apply_ite spanBytes]
  repeat' (refine ite_eq_both (fun _ => ?_) (fun _ => ?_))
  all_goals simp only [spanBytes, List.cons.injEq, and_true]
  all_goals first
    | exact statusHead_fields _ s (by assumption)
    | exact dataHead_fields s (by assumption)
    | exact (whole s).symm.trans (by assumption) |>.symm
    | exact oneByteHead_fields s (by assumption)
    | exact (lastClass s).resolve_left (by tauto)

/-- The bytes of a packet's row are the packet it was read from (R90). -/
theorem packetBytes_packetRow (p0 m0 m1 m2 : Byte) : packetBytes (packetRow p0 m0 m1 m2) = [p0, m0, m1, m2] := by
  have hk : ∀ cin : Nibble, p0 &&& 0x0F#8 = cin.setWidth 8 → packetHead (p0.extractLsb' 4 4) cin = p0 := by
    intro cin h
    have : cin = p0.extractLsb' 0 4 := by revert h; revert p0 cin; decide
    subst this; exact packetHead_fields p0
  have lastCin : ∀ b : Byte, (b &&& 0x0F#8 = 0x00#8 ∨ b &&& 0x0F#8 = 0x01#8 ∨ b &&& 0x0F#8 = 0x02#8 ∨
      b &&& 0x0F#8 = 0x03#8 ∨ b &&& 0x0F#8 = 0x04#8 ∨ b &&& 0x0F#8 = 0x05#8 ∨ b &&& 0x0F#8 = 0x06#8 ∨
      b &&& 0x0F#8 = 0x07#8 ∨ b &&& 0x0F#8 = 0x08#8 ∨ b &&& 0x0F#8 = 0x09#8 ∨ b &&& 0x0F#8 = 0x0A#8 ∨
      b &&& 0x0F#8 = 0x0B#8 ∨ b &&& 0x0F#8 = 0x0C#8 ∨ b &&& 0x0F#8 = 0x0D#8 ∨ b &&& 0x0F#8 = 0x0E#8) ∨
      packetHead (b.extractLsb' 4 4) 0xF#4 = b := by decide
  simp only [packetRow, apply_ite packetBytes]
  repeat' (refine ite_eq_both (fun _ => ?_) (fun _ => ?_))
  all_goals simp only [packetBytes, List.cons.injEq, and_true]
  all_goals first
    | exact hk _ (by assumption)
    | exact (lastCin p0).resolve_left (by simp [*])

/-- A status row is encoded as ENCODE_SINGLE of its span. -/
theorem encodeInstr_span {i : Instr} (h : spanBytes i ≠ []) : encodeInstr i = bytesL 0x31#8 (spanBytes i) := by
  cases i <;> first | rfl | exact absurd rfl h

/-- A packet row is encoded as DECODE of its 4 bytes. -/
theorem encodeInstr_packet {i : Instr} (h : packetBytes i ≠ []) : encodeInstr i = bytesP 0x10#8 (packetBytes i) := by
  cases i <;> first | rfl | exact absurd rfl h

/-- A status row is well-formed where its span is one a command can carry. -/
theorem wellFormed_span {i : Instr} (h : spanBytes i ≠ []) : i.WellFormed ↔ (spanBytes i).length ≤ 65535 := by
  cases i <;> first | exact absurd rfl h | (simp only [Instr.WellFormed, spanBytes, List.length_cons]; omega)

/-- A packet row is well-formed. -/
theorem wellFormed_packet {i : Instr} (h : packetBytes i ≠ []) : i.WellFormed := by
  cases i <;> first | exact absurd rfl h | trivial

/-! The formats (30_encoding.md R82): a command that is all there is read whole, whatever follows it. -/

theorem formatP_whole (f : List Byte → Instr) (p rest : List Byte) (h : p.length ≤ 4) :
    formatP f (BitVec.ofNat 8 p.length :: (p ++ rest)) = .instr (f p) rest := by
  have hl : (BitVec.ofNat 8 p.length).toNat = p.length := by simp; omega
  simp [formatP, hl]; omega

theorem formatL_whole (f : List Byte → Instr) (m rest : List Byte) (h : m.length ≤ 65535) :
    formatL f (BitVec.ofNat 8 (m.length / 256) :: BitVec.ofNat 8 (m.length % 256) :: (m ++ rest)) =
      .instr (f m) rest := by
  have hh : (BitVec.ofNat 8 (m.length / 256)).toNat = m.length / 256 := by simp; omega
  have hl : (BitVec.ofNat 8 (m.length % 256)).toNat = m.length % 256 := by simp
  have hs : m.length / 256 * 256 + m.length % 256 = m.length := by omega
  simp only [formatL, hh, hl, hs]
  simp

/-- What a format P field decodes to, it was read from: the length byte, that many bytes, and the rest. -/
theorem formatP_instr {f : List Byte → Instr} {t rest : List Byte} {i : Instr} (h : formatP f t = .instr i rest) :
    ∃ p, p.length ≤ 4 ∧ i = f p ∧ t = BitVec.ofNat 8 p.length :: (p ++ rest) := by
  cases t with
  | nil => simp [formatP] at h
  | cons len t =>
    simp only [formatP] at h
    split at h
    · cases h
    · split at h
      · cases h
      · rename_i h4 hl
        cases h
        refine ⟨t.take len.toNat, by simp; omega, rfl, ?_⟩
        have : (t.take len.toNat).length = len.toNat := by simp; omega
        rw [this]; simp

/-- What a format L field decodes to, it was read from: the two size bytes, that many bytes, and the rest. -/
theorem formatL_instr {f : List Byte → Instr} {t rest : List Byte} {i : Instr} (h : formatL f t = .instr i rest) :
    ∃ m, m.length ≤ 65535 ∧ i = f m ∧
      t = BitVec.ofNat 8 (m.length / 256) :: BitVec.ofNat 8 (m.length % 256) :: (m ++ rest) := by
  rcases t with _ | ⟨hi, _ | ⟨lo, t⟩⟩
  · simp [formatL] at h
  · simp [formatL] at h
  · simp only [formatL] at h
    split at h
    · cases h
    · cases h
      have hh := hi.isLt
      have hl := lo.isLt
      have hn : (t.take (hi.toNat * 256 + lo.toNat)).length = hi.toNat * 256 + lo.toNat := by simp; omega
      refine ⟨_, by rw [hn]; omega, rfl, ?_⟩
      rw [hn, show (hi.toNat * 256 + lo.toNat) / 256 = hi.toNat by omega,
        show (hi.toNat * 256 + lo.toNat) % 256 = lo.toNat by omega]
      simp

end Sys2Proof
end

