-- ==== Sys2Proof/Laws/State.lean ====
section
/-! SUPPORT. What each update of the state does to each field, so that no proof unfolds a record update. -/

namespace Sys2Proof.Machine

@[simp] theorem State.withCmdPort_cmdPort (s : State) (x : List Byte) : (s.withCmdPort x).cmdPort = x := rfl
@[simp] theorem State.withCmdPort_respPort (s : State) (x : List Byte) : (s.withCmdPort x).respPort = s.respPort := rfl
@[simp] theorem State.withCmdPort_q (s : State) (x : List Byte) : (s.withCmdPort x).q = s.q := rfl
@[simp] theorem State.withCmdPort_rxActive (s : State) (x : List Byte) : (s.withCmdPort x).rxActive = s.rxActive := rfl
@[simp] theorem State.withCmdPort_scr (s : State) (x : List Byte) : (s.withCmdPort x).scr = s.scr := rfl
@[simp] theorem State.withCmdPort_fault (s : State) (x : List Byte) : (s.withCmdPort x).fault = s.fault := rfl
@[simp] theorem State.withCmdPort_params (s : State) (x : List Byte) : (s.withCmdPort x).params = s.params := rfl

@[simp] theorem State.withQ_cmdPort (s : State) (x : List Byte) : (s.withQ x).cmdPort = s.cmdPort := rfl
@[simp] theorem State.withQ_respPort (s : State) (x : List Byte) : (s.withQ x).respPort = s.respPort := rfl
@[simp] theorem State.withQ_q (s : State) (x : List Byte) : (s.withQ x).q = x := rfl
@[simp] theorem State.withQ_rxActive (s : State) (x : List Byte) : (s.withQ x).rxActive = s.rxActive := rfl
@[simp] theorem State.withQ_scr (s : State) (x : List Byte) : (s.withQ x).scr = s.scr := rfl
@[simp] theorem State.withQ_fault (s : State) (x : List Byte) : (s.withQ x).fault = s.fault := rfl
@[simp] theorem State.withQ_params (s : State) (x : List Byte) : (s.withQ x).params = s.params := rfl

@[simp] theorem State.withRxActive_cmdPort (s : State) (x : Bool) : (s.withRxActive x).cmdPort = s.cmdPort := rfl
@[simp] theorem State.withRxActive_respPort (s : State) (x : Bool) : (s.withRxActive x).respPort = s.respPort := rfl
@[simp] theorem State.withRxActive_q (s : State) (x : Bool) : (s.withRxActive x).q = s.q := rfl
@[simp] theorem State.withRxActive_rxActive (s : State) (x : Bool) : (s.withRxActive x).rxActive = x := rfl
@[simp] theorem State.withRxActive_scr (s : State) (x : Bool) : (s.withRxActive x).scr = s.scr := rfl
@[simp] theorem State.withRxActive_fault (s : State) (x : Bool) : (s.withRxActive x).fault = s.fault := rfl
@[simp] theorem State.withRxActive_params (s : State) (x : Bool) : (s.withRxActive x).params = s.params := rfl

@[simp] theorem State.withScr_cmdPort (s : State) (x : List Byte) : (s.withScr x).cmdPort = s.cmdPort := rfl
@[simp] theorem State.withScr_respPort (s : State) (x : List Byte) : (s.withScr x).respPort = s.respPort := rfl
@[simp] theorem State.withScr_q (s : State) (x : List Byte) : (s.withScr x).q = s.q := rfl
@[simp] theorem State.withScr_rxActive (s : State) (x : List Byte) : (s.withScr x).rxActive = s.rxActive := rfl
@[simp] theorem State.withScr_scr (s : State) (x : List Byte) : (s.withScr x).scr = x := rfl
@[simp] theorem State.withScr_fault (s : State) (x : List Byte) : (s.withScr x).fault = s.fault := rfl
@[simp] theorem State.withScr_params (s : State) (x : List Byte) : (s.withScr x).params = s.params := rfl

@[simp] theorem State.respond_cmdPort (s : State) (x : List Byte) : (s.respond x).cmdPort = s.cmdPort := rfl
@[simp] theorem State.respond_respPort (s : State) (x : List Byte) : (s.respond x).respPort = s.respPort ++ x := rfl
@[simp] theorem State.respond_q (s : State) (x : List Byte) : (s.respond x).q = s.q := rfl
@[simp] theorem State.respond_rxActive (s : State) (x : List Byte) : (s.respond x).rxActive = s.rxActive := rfl
@[simp] theorem State.respond_scr (s : State) (x : List Byte) : (s.respond x).scr = s.scr := rfl
@[simp] theorem State.respond_fault (s : State) (x : List Byte) : (s.respond x).fault = s.fault := rfl
@[simp] theorem State.respond_params (s : State) (x : List Byte) : (s.respond x).params = s.params := rfl

@[simp] theorem State.raiseFault_cmdPort (s : State) (x : Byte) : (s.raiseFault x).cmdPort = s.cmdPort := rfl
@[simp] theorem State.raiseFault_respPort (s : State) (x : Byte) : (s.raiseFault x).respPort = s.respPort := rfl
@[simp] theorem State.raiseFault_q (s : State) (x : Byte) : (s.raiseFault x).q = s.q := rfl
@[simp] theorem State.raiseFault_rxActive (s : State) (x : Byte) : (s.raiseFault x).rxActive = s.rxActive := rfl
@[simp] theorem State.raiseFault_scr (s : State) (x : Byte) : (s.raiseFault x).scr = s.scr := rfl
@[simp] theorem State.raiseFault_fault (s : State) (x : Byte) : (s.raiseFault x).fault = x := rfl
@[simp] theorem State.raiseFault_params (s : State) (x : Byte) : (s.raiseFault x).params = s.params := rfl

@[simp] theorem State.flushQ_cmdPort (s : State) : (s.flushQ).cmdPort = s.cmdPort := rfl
@[simp] theorem State.flushQ_respPort (s : State) : (s.flushQ).respPort = s.respPort := rfl
@[simp] theorem State.flushQ_q (s : State) : (s.flushQ).q = [] := rfl
@[simp] theorem State.flushQ_rxActive (s : State) : (s.flushQ).rxActive = s.rxActive := rfl
@[simp] theorem State.flushQ_scr (s : State) : (s.flushQ).scr = s.scr := rfl
@[simp] theorem State.flushQ_fault (s : State) : (s.flushQ).fault = s.fault := rfl
@[simp] theorem State.flushQ_params (s : State) : (s.flushQ).params = s.params := rfl

@[simp] theorem State.faulted_iff (s : State) : s.faulted = true ↔ s.fault ≠ 0x00#8 := by simp [State.faulted]

end Sys2Proof.Machine
end

