-- ==== Sys2Proof/Laws/Ops.lean ====
section
/-! SUPPORT. One specification per shared operation: what the queue, the scratch buffer and the state operations over
them can do. -/

namespace Sys2Proof.Machine

/-! The queue. -/

theorem queuePush_room {cap : Nat} {q : List Byte} (b : Byte) (h : q.length ≠ cap) :
    queuePush cap b q = (q ++ [b], .ok) := by simp [queuePush, h]

theorem queuePush_full {cap : Nat} {q : List Byte} (b : Byte) (h : q.length = cap) :
    queuePush cap b q = (q, .overflow) := by simp [queuePush, h]

/-- Pushing bytes onto a queue within its capacity: all of them, or those that fit and an overflow (R140, R141). -/
theorem queuePushAll_spec (cap : Nat) (bs q : List Byte) (h : q.length ≤ cap) :
    queuePushAll cap bs q = if q.length + bs.length ≤ cap then (q ++ bs, .ok)
      else (q ++ bs.take (cap - q.length), .overflow) := by
  induction bs generalizing q with
  | nil => simp [queuePushAll, h]
  | cons b bs ih =>
    by_cases hq : q.length = cap
    · simp [queuePushAll, queuePush_full b hq, hq]
    · have hl : (q ++ [b]).length ≤ cap := by simp; omega
      have hs : cap - q.length = (cap - (q.length + 1)) + 1 := by omega
      simp only [queuePushAll, queuePush_room b hq, ih _ hl]
      simp [hs, Nat.add_assoc, Nat.add_comm 1]

/-- An overflow leaves the queue exactly full, wherever it started, and happens only where the bytes do not fit (R141). -/
theorem queuePushAll_overflow {cap : Nat} {bs q : List Byte} (h : (queuePushAll cap bs q).2 = .overflow) :
    (queuePushAll cap bs q).1.length = cap ∧ cap < q.length + bs.length := by
  induction bs generalizing q with
  | nil => simp [queuePushAll] at h
  | cons b bs ih =>
    by_cases hq : q.length = cap
    · simp [queuePushAll, queuePush_full b hq, hq]
    · simp only [queuePushAll, queuePush_room b hq] at h ⊢
      have := ih h
      simp only [List.length_append, List.length_cons, List.length_nil] at this ⊢
      omega

/-- Pushing keeps a queue within its capacity (R20). -/
theorem queuePushAll_length_le {cap : Nat} (bs : List Byte) {q : List Byte} (h : q.length ≤ cap) :
    (queuePushAll cap bs q).1.length ≤ cap := by
  rw [queuePushAll_spec cap bs q h]
  split
  · simpa using by assumption
  · simp; omega

/-! The scratch buffer. -/

@[simp] theorem packetsBytes_nil : packetsBytes [] = [] := rfl

@[simp] theorem packetsBytes_cons (p : Packet) (ps : List Packet) :
    packetsBytes (p :: ps) = p.b0 :: p.b1 :: p.b2 :: p.b3 :: packetsBytes ps := rfl

@[simp] theorem packetsBytes_append (ps qs : List Packet) :
    packetsBytes (ps ++ qs) = packetsBytes ps ++ packetsBytes qs := by simp [packetsBytes]

@[simp] theorem packetsBytes_length (ps : List Packet) : (packetsBytes ps).length = 4 * ps.length := by
  induction ps with
  | nil => rfl
  | cons p ps ih => simp [ih]; omega

/-- Emitting packets into a buffer within its size: all of them, or those that fit and a refusal (R181, R199). -/
theorem scratchEmitAll_spec (size : Nat) (ps : List Packet) (scr : List Byte) (h : scr.length ≤ size) :
    scratchEmitAll size ps scr = if scr.length + 4 * ps.length ≤ size then (scr ++ packetsBytes ps, true)
      else (scr ++ packetsBytes (ps.take ((size - scr.length) / 4)), false) := by
  induction ps generalizing scr with
  | nil => simp [scratchEmitAll, h]
  | cons p ps ih =>
    by_cases hp : scr.length + 4 > size
    · have hz : (size - scr.length) / 4 = 0 := by omega
      have hn : ¬ scr.length + 4 * (p :: ps).length ≤ size := by simp; omega
      rw [if_neg hn]
      simp [scratchEmitAll, scratchEmit, hp, hz]
    · have hl : (scr ++ p.bytes).length ≤ size := by simp [Packet.bytes]; omega
      have hd : (size - scr.length) / 4 = (size - (scr.length + 4)) / 4 + 1 := by omega
      have hc : (scr.length + 4 * (p :: ps).length ≤ size) = (scr.length + 4 + 4 * ps.length ≤ size) := by
        simp only [List.length_cons]; congr 1; omega
      simp only [scratchEmitAll, scratchEmit, hp, if_false, ih _ hl, hc, hd]
      simp [Packet.bytes]

/-- Emitting always appends some of the packets, in order, and never passes the size of a buffer within it. -/
theorem scratchEmitAll_prefix (size : Nat) (ps : List Packet) (scr : List Byte) :
    ∃ k, (scratchEmitAll size ps scr).1 = scr ++ packetsBytes (ps.take k) ∧
      (scr.length ≤ size → (scratchEmitAll size ps scr).1.length ≤ size) := by
  induction ps generalizing scr with
  | nil => exact ⟨0, by simp [scratchEmitAll]⟩
  | cons p ps ih =>
    by_cases hp : scr.length + 4 > size
    · exact ⟨0, by simp [scratchEmitAll, scratchEmit, hp]⟩
    · obtain ⟨k, hk, hl⟩ := ih (scr ++ p.bytes)
      refine ⟨k + 1, ?_, ?_⟩
      · simp only [scratchEmitAll, scratchEmit, hp, if_false, hk]
        simp [Packet.bytes]
      · intro _
        simp only [scratchEmitAll, scratchEmit, hp, if_false]
        exact hl (by simp [Packet.bytes]; omega)

/-! The state operations. -/

/-- A command on a block that is not faulted has its effect (R245). -/
theorem command_running {f : State → State} {s : State} (h : s.fault = 0x00#8) : command f s = .next (f s) := by
  simp [command, State.faulted, h]

/-- A command on a faulted block has none (R245). -/
theorem command_faulted {f : State → State} {s : State} (h : s.fault ≠ 0x00#8) : command f s = .next s := by
  simp [command, State.faulted, h]

/-- What a command can answer: its effect while not faulted, the same state while faulted. -/
theorem command_cases {f : State → State} {s t : State} (h : command f s = .next t) :
    (s.fault = 0x00#8 ∧ t = f s) ∨ (s.fault ≠ 0x00#8 ∧ t = s) := by
  by_cases hf : s.fault = 0x00#8
  · rw [command_running hf] at h; cases h; exact .inl ⟨hf, rfl⟩
  · rw [command_faulted hf] at h; cases h; exact .inr ⟨hf, rfl⟩

/-- The decoder's copy on a queue within its capacity (R140, R141). -/
theorem copyPayload_spec (bs : List Byte) (s : State) (h : s.q.length ≤ s.params.rxqCapacity) :
    copyPayload bs s = if s.q.length + bs.length ≤ s.params.rxqCapacity then s.withQ (s.q ++ bs)
      else (s.withQ (s.q ++ bs.take (s.params.rxqCapacity - s.q.length))).withRxActive false := by
  simp only [copyPayload, queuePushAll_spec _ bs s.q h]
  split <;> rename_i hs <;> split at hs <;> simp_all

/-- The decoder's copy in every state: the queue it leaves, and either nothing else or, where the bytes do not fit, a
disarm over a full queue. -/
theorem copyPayload_cases (bs : List Byte) (s : State) :
    copyPayload bs s = s.withQ (queuePushAll s.params.rxqCapacity bs s.q).1 ∨
    (copyPayload bs s = (s.withQ (queuePushAll s.params.rxqCapacity bs s.q).1).withRxActive false ∧
      (queuePushAll s.params.rxqCapacity bs s.q).1.length = s.params.rxqCapacity ∧
      s.params.rxqCapacity < s.q.length + bs.length) := by
  unfold copyPayload
  split <;> rename_i q' h
  · left; simp [h]
  · right; exact ⟨by simp [h], queuePushAll_overflow (by simp [h])⟩

/-- The encoder's emission where every packet fits (R181). -/
theorem emitPackets_fits {ps : List Packet} {s : State}
    (h : s.scr.length + 4 * ps.length ≤ s.params.txScratchBytes) :
    emitPackets ps s = s.withScr (s.scr ++ packetsBytes ps) := by
  have hs : s.scr.length ≤ s.params.txScratchBytes := by omega
  simp only [emitPackets, scratchEmitAll_spec _ ps s.scr hs, if_pos h]

/-- The encoder's emission where some packet does not fit (R181, R199). -/
theorem emitPackets_overflows {ps : List Packet} {s : State} (hs : s.scr.length ≤ s.params.txScratchBytes)
    (h : (s.params.txScratchBytes - s.scr.length) / 4 < ps.length) :
    emitPackets ps s =
      (s.withScr (s.scr ++ packetsBytes (ps.take ((s.params.txScratchBytes - s.scr.length) / 4)))).raiseFault
        faultScratchOverflow := by
  have hn : ¬ s.scr.length + 4 * ps.length ≤ s.params.txScratchBytes := by omega
  simp only [emitPackets, scratchEmitAll_spec _ ps s.scr hs, if_neg hn]

@[simp] theorem emitPackets_nil (s : State) : emitPackets [] s = s := rfl

/-- Emitting packets is emitting some and then the others, unless a packet of the first did not fit (R181, R199). -/
theorem scratchEmitAll_append (size : Nat) (ps rs : List Packet) (scr : List Byte) :
    scratchEmitAll size (ps ++ rs) scr =
      if (scratchEmitAll size ps scr).2 then scratchEmitAll size rs (scratchEmitAll size ps scr).1
      else scratchEmitAll size ps scr := by
  induction ps generalizing scr with
  | nil => simp [scratchEmitAll]
  | cons p ps ih =>
    by_cases hp : scr.length + 4 > size <;> simp [scratchEmitAll, scratchEmit, hp, ih]

/-- Emitting packets in one command is emitting some in a command and the others in the next (R199, R245). -/
theorem command_emitPackets_append (ps rs : List Packet) {s t : State}
    (h : command (emitPackets ps) s = .next t) :
    command (emitPackets (ps ++ rs)) s = command (emitPackets rs) t := by
  obtain ⟨h0, rfl⟩ | ⟨h0, rfl⟩ := command_cases h
  · rw [command_running h0]
    have ha := scratchEmitAll_append s.params.txScratchBytes ps rs s.scr
    cases hp : scratchEmitAll s.params.txScratchBytes ps s.scr with
    | mk scr' fits =>
      cases fits
      · have hf : (emitPackets ps s).fault ≠ 0x00#8 := by simp [emitPackets, hp, faultScratchOverflow]
        rw [command_faulted hf]
        simp only [hp] at ha
        simp [emitPackets, ha, hp]
      · have hf : (emitPackets ps s).fault = 0x00#8 := by simp [emitPackets, hp, h0]
        rw [command_running hf]
        simp only [hp] at ha
        have he : emitPackets ps s = s.withScr scr' := by simp only [emitPackets, hp]
        rw [he]
        simp only [emitPackets, ha, if_true]
        rfl
  · rw [command_faulted h0, command_faulted h0]

/-- The encoder's emission in every state: some of the packets appended, and at most the one fault. -/
theorem emitPackets_cases (ps : List Packet) (s : State) :
    ∃ k, (emitPackets ps s = s.withScr (s.scr ++ packetsBytes (ps.take k)) ∨
      emitPackets ps s = (s.withScr (s.scr ++ packetsBytes (ps.take k))).raiseFault faultScratchOverflow) ∧
      (s.scr.length ≤ s.params.txScratchBytes →
        (s.scr ++ packetsBytes (ps.take k)).length ≤ s.params.txScratchBytes) := by
  obtain ⟨k, hk, hl⟩ := scratchEmitAll_prefix s.params.txScratchBytes ps s.scr
  refine ⟨k, ?_, by rw [← hk]; exact hl⟩
  unfold emitPackets
  split <;> rename_i scr' h <;> simp [← hk, h]

/-! Every storage operation keeps the storages' form (R20, R23, R224). -/

theorem flushQ_wf {s : State} (h : Memory.wf s) : Memory.wf s.flushQ :=
  ⟨Nat.zero_le _, h.2⟩

theorem queuePush_wf {s : State} (b : Byte) (h : Memory.wf s) :
    Memory.wf (s.withQ (queuePush s.params.rxqCapacity b s.q).1) := by
  refine ⟨?_, h.2⟩
  by_cases hq : s.q.length = s.params.rxqCapacity
  · simp [queuePush_full b hq, hq]
  · have := h.1
    simp [queuePush_room b hq]; omega

theorem queuePop_wf {s : State} {b : Byte} {rest : List Byte} (hp : queuePop s.q = some (b, rest))
    (h : Memory.wf s) : Memory.wf (s.withQ rest) := by
  cases hq : s.q with
  | nil => simp [queuePop, hq] at hp
  | cons c q =>
    simp only [queuePop, hq, Option.some.injEq, Prod.mk.injEq] at hp
    have := h.1
    simp [hq] at this
    exact ⟨by simp [← hp.2]; omega, h.2⟩

theorem copyPayload_wf {s : State} (bs : List Byte) (h : Memory.wf s) : Memory.wf (copyPayload bs s) := by
  have hl := queuePushAll_length_le bs h.1
  obtain hc | ⟨hc, -⟩ := copyPayload_cases bs s <;> rw [hc] <;> exact ⟨hl, h.2⟩

theorem emitPackets_wf {s : State} (ps : List Packet) (h : Memory.wf s) : Memory.wf (emitPackets ps s) := by
  obtain ⟨k, hc, hl⟩ := emitPackets_cases ps s
  have hm : (s.scr ++ packetsBytes (ps.take k)).length % 4 = 0 := by
    have := h.2.2
    simp only [List.length_append, packetsBytes_length]; omega
  rcases hc with hc | hc <;> rw [hc] <;> exact ⟨h.1, hl h.2.1, hm⟩

theorem releaseScr_wf {s : State} (h : Memory.wf s) : Memory.wf (s.withScr []) :=
  ⟨h.1, Nat.zero_le _, rfl⟩

theorem reset_wf : Memory.wf State.reset := ⟨Nat.zero_le _, Nat.zero_le _, rfl⟩

end Sys2Proof.Machine
end

