-- ==== Sys2Proof/Laws/Exec.lean ====
section
/-! SUPPORT. Said once: everything an instruction and a step can do. -/

namespace Sys2Proof.Machine

/-- The instruction is DECODE of a whole packet that is not discarded, in either spelling, and `bs` is the packet's
payload (R140). -/
def CopiesPayload (i : Instr) (bs : List Byte) : Prop :=
  ∃ p0 m0 m1 m2 : Byte, (i = .decode [p0, m0, m1, m2] ∨ i = packetRow p0 m0 m1 m2) ∧
    2 ≤ (p0 &&& 0x0F#8).toNat ∧ bs = [m0, m1, m2].take (payloadSize (cinOf p0))

/-- The row of a packet with CIN 0x2 to 0xF copies that packet's payload. -/
theorem CopiesPayload.of_row {i : Instr} {bs : List Byte} (cable cin : Nibble) (m0 m1 m2 : Byte)
    (hi : i = packetRow (packetHead cable cin) m0 m1 m2) (hc : 2 ≤ cin.toNat)
    (hb : bs = [m0, m1, m2].take (payloadSize (cin.setWidth 8))) : CopiesPayload i bs := by
  refine ⟨_, m0, m1, m2, .inr hi, ?_, ?_⟩
  · rw [packetHead_cin]
    have h : ∀ c : Nibble, 2 ≤ c.toNat → 2 ≤ (c.setWidth 8).toNat := by decide
    exact h cin hc
  · rw [cinOf, packetHead_cin]; exact hb

/-- An instruction that copies a payload is one that may write the queue (R20). -/
theorem CopiesPayload.writesQueue {i : Instr} {bs : List Byte} (h : CopiesPayload i bs) : writesQueue i = true := by
  obtain ⟨p0, m0, m1, m2, rfl | rfl, -, -⟩ := h
  · rfl
  · unfold Machine.writesQueue
    split
    all_goals first | rfl | simp [packetBytes_packetRow]

/-- The kinds of effect an instruction can have on a state, each with the instructions that have it. -/
inductive Effect (i : Instr) (s : State) : State → Prop
  /-- Some response bytes, none among the possibilities, and nothing else. -/
  | respond (r : List Byte) : Effect i s (s.respond r)
  | push (b : Byte) (hi : i = .qwrite b) (hs : s.fault = 0x00#8) :
      Effect i s ((s.withQ (queuePush s.params.rxqCapacity b s.q).1).respond
        [pushResponse (queuePush s.params.rxqCapacity b s.q).2])
  | pop (b : Byte) (rest : List Byte) (hi : i = .qread) (hs : s.fault = 0x00#8)
      (hq : queuePop s.q = some (b, rest)) : Effect i s ((s.withQ rest).respond [b])
  | popEmpty (hi : i = .qread) (hs : s.fault = 0x00#8) (hq : s.q = []) :
      Effect i s (s.raiseFault faultQueueEmpty)
  | flush (hi : i = .qflush ∨ i = .rxFlush) (hs : s.fault = 0x00#8) : Effect i s s.flushQ
  | arm (hi : i = .rxArm) (hs : s.fault = 0x00#8) : Effect i s (s.flushQ.withRxActive true)
  | badLength (p : List Byte) (hi : i = .decode p) (hs : s.fault = 0x00#8) (hp : 4 < p.length) :
      Effect i s (s.raiseFault faultBadLength)
  | copy (bs : List Byte) (hi : CopiesPayload i bs) (hs : s.fault = 0x00#8)
      (ha : s.rxActive = true) : Effect i s (copyPayload bs s)
  | emit (ps : List Packet) (hi : isEncode i = true) (hs : s.fault = 0x00#8)
      (hp : ∀ p ∈ ps, p.b0.toNat < 16) : Effect i s (emitPackets ps s)
  | release (hi : i = .txRelease) (hs : s.fault = 0x00#8) : Effect i s (s.withScr [])

/-- Doing nothing is an effect of every instruction. -/
theorem Effect.none (i : Instr) (s : State) : Effect i s s := by
  have h := Effect.respond (i := i) (s := s) []
  rwa [show s.respond [] = s by simp [State.respond]] at h

/-! The CIN that each class of span writes is below 16, so bits 7:4 of byte 0 are 0 (R93). -/

theorem cvCin_lt (s : Byte) : (cvCin s).toNat < 16 := by
  revert s; decide

theorem cv2Packets_cin (s : Byte) (rest : List Byte) : ∀ p ∈ cv2Packets s rest, p.b0.toNat < 16 := by
  unfold cv2Packets; split <;> simp [cvCin_lt]

theorem cv3Packets_cin (s : Byte) (rest : List Byte) : ∀ p ∈ cv3Packets s rest, p.b0.toNat < 16 := by
  unfold cv3Packets; split <;> simp [cvCin_lt]

theorem sc3Packets_cin (s : Byte) (rest : List Byte) : ∀ p ∈ sc3Packets s rest, p.b0.toNat < 16 := by
  unfold sc3Packets; split <;> simp

theorem sc2Packets_cin (s : Byte) (rest : List Byte) : ∀ p ∈ sc2Packets s rest, p.b0.toNat < 16 := by
  unfold sc2Packets; split <;> simp

theorem oneBytePackets_cin (s : Byte) (rest : List Byte) : ∀ p ∈ oneBytePackets s rest, p.b0.toNat < 16 := by
  unfold oneBytePackets; split <;> simp

theorem sysexPackets_cin (m : List Byte) : ∀ p ∈ sysexPackets m, p.b0.toNat < 16 := by
  induction m using sysexPackets.induct with
  | case1 => simp [sysexPackets]
  | case2 a => simp [sysexPackets]
  | case3 a b => simp [sysexPackets]
  | case4 a b c => simp [sysexPackets]
  | case5 a b c d rest ih => simpa [sysexPackets] using ih

/-- Every packet of the single-message encoder has its cable bits 0 (R93). -/
theorem spanPackets_cin (m : List Byte) : ∀ p ∈ spanPackets m, p.b0.toNat < 16 := by
  unfold spanPackets
  split
  · simp
  · split
    · split
      · exact cv2Packets_cin _ _
      · exact cv3Packets_cin _ _
    · split
      · intro p hp
        rcases List.mem_append.1 hp with hp | hp
        · split at hp
          · exact sc3Packets_cin _ _ p hp
          · simp at hp
        · split at hp
          · exact sc2Packets_cin _ _ p hp
          · split at hp
            · exact oneBytePackets_cin _ _ p hp
            · simp at hp
      · exact sysexPackets_cin _

/-- Every packet of the scan has its cable bits 0 (R93). -/
theorem scanPackets_cin (m : List Byte) : ∀ p ∈ scanPackets m, p.b0.toNat < 16 := by
  intro p hp
  obtain ⟨sp, -, h⟩ := List.mem_flatMap.1 hp
  exact spanPackets_cin sp p h

/-- A command whose effect is one of the kinds has that kind, faulted or not. -/
theorem Effect.of_command {i : Instr} {f : State → State} {s t : State} (h : command f s = .next t)
    (hf : s.fault = 0x00#8 → Effect i s (f s)) : Effect i s t := by
  obtain ⟨h0, rfl⟩ | ⟨-, rfl⟩ := command_cases h
  · exact hf h0
  · exact .none i t

/-- A packet row's payload copy is one of the kinds. -/
theorem Effect.of_enqueue {i : Instr} {bs : List Byte} {s : State} (hs : s.fault = 0x00#8)
    (hi : CopiesPayload i bs) : Effect i s (enqueuePayload bs s) := by
  unfold enqueuePayload
  split
  · exact .none i s
  · rename_i ha
    exact .copy bs hi hs (by simpa using ha)

/-- DECODE's run is one of the kinds. -/
theorem Effect.of_decodePacket {p : List Byte} {s : State} (hs : s.fault = 0x00#8) :
    Effect (.decode p) s (decodePacket p s) := by
  unfold decodePacket
  split
  · exact .badLength p rfl hs ‹_›
  · split
    · exact .none _ s
    · rename_i ha
      split
      · exact .none _ s
      · split
        · exact .none _ s
        · rename_i h4 hl hc
          obtain ⟨p0, m0, m1, m2, rfl⟩ : ∃ p0 m0 m1 m2, p = [p0, m0, m1, m2] := by
            rcases p with _ | ⟨p0, _ | ⟨m0, _ | ⟨m1, _ | ⟨m2, _ | ⟨m3, r⟩⟩⟩⟩⟩ <;> simp_all
          have h2 : ∀ b : Byte, ¬(b &&& 0x0F#8 = 0x00#8 ∨ b &&& 0x0F#8 = 0x01#8) → 2 ≤ (b &&& 0x0F#8).toNat := by decide
          exact .copy _ ⟨p0, m0, m1, m2, .inl rfl, h2 p0 hc, rfl⟩ hs (by simpa using ha)

/-- Everything an instruction can do. -/
theorem exec_effect {i : Instr} {s t : State} (h : exec i s = .next t) : Effect i s t := by
  cases i with
  | qwrite b => simp only [exec, execQwrite] at h; exact .of_command h fun h0 => .push b rfl h0
  | qread =>
    simp only [exec, execQread] at h
    refine .of_command h fun h0 => ?_
    cases hq : s.q with
    | nil => simpa [queuePop] using Effect.popEmpty rfl h0 hq
    | cons b rest => simpa [queuePop] using Effect.pop b rest rfl h0 (by simp [queuePop, hq])
  | qflush => exact .of_command h fun h0 => .flush (.inl rfl) h0
  | qreadable => simp only [exec, execQreadable] at h; exact .of_command h fun _ => .respond _
  | qisempty => simp only [exec, execQisempty] at h; exact .of_command h fun _ => .respond _
  | decode p => exact .of_command h fun h0 => .of_decodePacket h0
  | rxArm => simp only [exec, execRxArm] at h; exact .of_command h fun h0 => .arm rfl h0
  | rxFlush => exact .of_command h fun h0 => .flush (.inr rfl) h0
  | rxActive => simp only [exec, execRxActive] at h; exact .of_command h fun _ => .respond _
  | encode m => exact .of_command h fun h0 => .emit _ rfl h0 (scanPackets_cin m)
  | encodeSingle m => exact .of_command h fun h0 => .emit _ rfl h0 (spanPackets_cin m)
  | txTake => simp only [exec, execTxTake] at h; exact .of_command h fun _ => .respond _
  | txRelease => simp only [exec, execTxRelease] at h; exact .of_command h fun h0 => .release rfl h0
  | status => cases h; exact .respond _
  | usbmidiCin0 _ _ _ _ => simp only [exec, execUsbmidiCin0] at h; exact .of_command h fun _ => .none _ s
  | usbmidiCin1 _ _ _ _ => simp only [exec, execUsbmidiCin1] at h; exact .of_command h fun _ => .none _ s
  | usbmidiCin2 cable m0 m1 m2 =>
    exact .of_command h fun h0 => .of_enqueue h0
      (.of_row cable 0x2#4 m0 m1 m2 (by simp [packetRow, packetHead_cin, packetHead_cable]) (by decide) rfl)
  | usbmidiCin3 cable m0 m1 m2 =>
    exact .of_command h fun h0 => .of_enqueue h0
      (.of_row cable 0x3#4 m0 m1 m2 (by simp [packetRow, packetHead_cin, packetHead_cable]) (by decide) rfl)
  | usbmidiCin4 cable m0 m1 m2 =>
    exact .of_command h fun h0 => .of_enqueue h0
      (.of_row cable 0x4#4 m0 m1 m2 (by simp [packetRow, packetHead_cin, packetHead_cable]) (by decide) rfl)
  | usbmidiCin5 cable m0 m1 m2 =>
    exact .of_command h fun h0 => .of_enqueue h0
      (.of_row cable 0x5#4 m0 m1 m2 (by simp [packetRow, packetHead_cin, packetHead_cable]) (by decide) rfl)
  | usbmidiCin6 cable m0 m1 m2 =>
    exact .of_command h fun h0 => .of_enqueue h0
      (.of_row cable 0x6#4 m0 m1 m2 (by simp [packetRow, packetHead_cin, packetHead_cable]) (by decide) rfl)
  | usbmidiCin7 cable m0 m1 m2 =>
    exact .of_command h fun h0 => .of_enqueue h0
      (.of_row cable 0x7#4 m0 m1 m2 (by simp [packetRow, packetHead_cin, packetHead_cable]) (by decide) rfl)
  | usbmidiCin8 cable m0 m1 m2 =>
    exact .of_command h fun h0 => .of_enqueue h0
      (.of_row cable 0x8#4 m0 m1 m2 (by simp [packetRow, packetHead_cin, packetHead_cable]) (by decide) rfl)
  | usbmidiCin9 cable m0 m1 m2 =>
    exact .of_command h fun h0 => .of_enqueue h0
      (.of_row cable 0x9#4 m0 m1 m2 (by simp [packetRow, packetHead_cin, packetHead_cable]) (by decide) rfl)
  | usbmidiCinA cable m0 m1 m2 =>
    exact .of_command h fun h0 => .of_enqueue h0
      (.of_row cable 0xA#4 m0 m1 m2 (by simp [packetRow, packetHead_cin, packetHead_cable]) (by decide) rfl)
  | usbmidiCinB cable m0 m1 m2 =>
    exact .of_command h fun h0 => .of_enqueue h0
      (.of_row cable 0xB#4 m0 m1 m2 (by simp [packetRow, packetHead_cin, packetHead_cable]) (by decide) rfl)
  | usbmidiCinC cable m0 m1 m2 =>
    exact .of_command h fun h0 => .of_enqueue h0
      (.of_row cable 0xC#4 m0 m1 m2 (by simp [packetRow, packetHead_cin, packetHead_cable]) (by decide) rfl)
  | usbmidiCinD cable m0 m1 m2 =>
    exact .of_command h fun h0 => .of_enqueue h0
      (.of_row cable 0xD#4 m0 m1 m2 (by simp [packetRow, packetHead_cin, packetHead_cable]) (by decide) rfl)
  | usbmidiCinE cable m0 m1 m2 =>
    exact .of_command h fun h0 => .of_enqueue h0
      (.of_row cable 0xE#4 m0 m1 m2 (by simp [packetRow, packetHead_cin, packetHead_cable]) (by decide) rfl)
  | usbmidiCinF cable m0 m1 m2 =>
    exact .of_command h fun h0 => .of_enqueue h0
      (.of_row cable 0xF#4 m0 m1 m2 (by simp [packetRow, packetHead_cin, packetHead_cable]) (by decide) rfl)
  | midiCv3_8n ch rest => exact .of_command h fun h0 => .emit _ rfl h0 (cv3Packets_cin _ _)
  | midiCv3_9n ch rest => exact .of_command h fun h0 => .emit _ rfl h0 (cv3Packets_cin _ _)
  | midiCv3_An ch rest => exact .of_command h fun h0 => .emit _ rfl h0 (cv3Packets_cin _ _)
  | midiCv3_Bn ch rest => exact .of_command h fun h0 => .emit _ rfl h0 (cv3Packets_cin _ _)
  | midiCv2_Cn ch rest => exact .of_command h fun h0 => .emit _ rfl h0 (cv2Packets_cin _ _)
  | midiCv2_Dn ch rest => exact .of_command h fun h0 => .emit _ rfl h0 (cv2Packets_cin _ _)
  | midiCv3_En ch rest => exact .of_command h fun h0 => .emit _ rfl h0 (cv3Packets_cin _ _)
  | midiLeadingData d rest => exact .of_command h fun h0 => .emit _ rfl h0 (cv3Packets_cin _ _)
  | midiSysex rest => exact .of_command h fun h0 => .emit _ rfl h0 (sysexPackets_cin _)
  | midiSc2_F1 rest => exact .of_command h fun h0 => .emit _ rfl h0 (sc2Packets_cin _ _)
  | midiSc3_F2 rest => exact .of_command h fun h0 => .emit _ rfl h0 (sc3Packets_cin _ _)
  | midiSc2_F3 rest => exact .of_command h fun h0 => .emit _ rfl h0 (sc2Packets_cin _ _)
  | midi1b_F4_F7 lo rest => exact .of_command h fun h0 => .emit _ rfl h0 (oneBytePackets_cin _ _)
  | midiRt_F8_FF lo rest => exact .of_command h fun h0 => .emit _ rfl h0 (oneBytePackets_cin _ _)

/-! The step. -/

theorem fetch_running {s : State} (h : s.fault = 0x00#8) : fetch s = fetchRunning s := by
  simp [fetch, State.faulted, h]

theorem fetch_faulted {s : State} (h : s.fault ≠ 0x00#8) : fetch s = fetchFaulted s := by
  simp [fetch, State.faulted, h]

/-- Everything a step can do: an instruction in the state with the port moved on, the port moved on alone, or the
port's two faults on a block that has none. -/
theorem step_cases {s t : State} (h : step s = .next t) :
    ∃ bytes, (∃ i, exec i (s.withCmdPort bytes) = .next t ∧ (s.fault ≠ 0x00#8 → i = .status)) ∨
      t = s.withCmdPort bytes ∨
      (s.fault = 0x00#8 ∧ (t = (s.withCmdPort bytes).raiseFault faultIllegalOpcode ∨
        t = (s.withCmdPort bytes).raiseFault faultBadLength)) := by
  unfold step at h
  by_cases h0 : s.fault = 0x00#8
  · rw [fetch_running h0] at h
    unfold fetchRunning at h
    cases hd : decodePort s.cmdPort with
    | instr i rest => simp only [hd] at h; exact ⟨rest, .inl ⟨i, h, fun hn => absurd h0 hn⟩⟩
    | hold => simp only [hd] at h; cases h; exact ⟨s.cmdPort, .inr (.inl rfl)⟩
    | illegalOpcode rest => simp only [hd] at h; cases h; exact ⟨rest, .inr (.inr ⟨h0, .inl rfl⟩)⟩
    | badLength rest => simp only [hd] at h; cases h; exact ⟨rest, .inr (.inr ⟨h0, .inr rfl⟩)⟩
  · rw [fetch_faulted h0] at h
    unfold fetchFaulted at h
    cases hp : s.cmdPort with
    | nil => simp only [hp] at h; cases h; exact ⟨s.cmdPort, .inr (.inl rfl)⟩
    | cons b rest =>
      simp only [hp] at h
      split at h <;> rename_i hb <;> split at hb <;> cases hb
      · exact ⟨rest, .inl ⟨.status, h, fun _ => rfl⟩⟩
      · cases h; exact ⟨rest, .inr (.inl rfl)⟩

end Sys2Proof.Machine
end

