-- ==== Sys2Proof/Laws/Encoder.lean ====
section
/-! SUPPORT. The encoder's functions: the spans of the scan and the SysEx framing. -/

namespace Sys2Proof.Machine

/-! The scan (43_encoder.md R190). -/

theorem consHead_cons (b : Byte) (sp : List Byte) (rest : List (List Byte)) :
    consHead b (sp :: rest) = (b :: sp) :: rest := rfl

/-- A head and data bytes with nothing behind them are one span. -/
theorem spans_data (b : Byte) (ds : List Byte) (h : ∀ d ∈ ds, isStatus d = false) :
    spans (b :: ds) = [b :: ds] := by
  induction ds generalizing b with
  | nil => rfl
  | cons d ds ih =>
    have hd := h d (by simp)
    simp [spans, hd, ih d (fun x hx => h x (by simp [hx])), consHead]

/-- A head and data bytes before a status byte are the first span, and the scan goes on at the status byte. -/
theorem spans_data_status (b c : Byte) (ds rest : List Byte) (h : ∀ d ∈ ds, isStatus d = false)
    (hc : isStatus c = true) : spans (b :: (ds ++ c :: rest)) = (b :: ds) :: spans (c :: rest) := by
  induction ds generalizing b with
  | nil => simp [spans, hc]
  | cons d ds ih =>
    have hd := h d (by simp)
    have := ih d (fun x hx => h x (by simp [hx]))
    simp [spans, hd, this, consHead]

/-- The spans are the head and the data bytes up to the next status byte, and the spans of what is behind. -/
theorem scanPackets_append (sp after : List Byte) (rest : List (List Byte)) (m : List Byte)
    (h : spans m = sp :: rest) (ha : spans after = rest) : scanPackets m = spanPackets sp ++ scanPackets after := by
  simp [scanPackets, h, ha]

/-! SysEx framing (43_encoder.md R187). -/

/-- A span of more than 3 bytes starts with a full triple. -/
theorem sysexPackets_triple (a b c : Byte) (m : List Byte) (h : m ≠ []) :
    sysexPackets (a :: b :: c :: m) = ⟨0x04#8, a, b, c⟩ :: sysexPackets m := by
  cases m with
  | nil => exact absurd rfl h
  | cons d m => simp [sysexPackets]

/-- A SysEx span of n bytes gives ceil(n / 3) packets (R196). -/
theorem sysexPackets_length (m : List Byte) : (sysexPackets m).length = (m.length + 2) / 3 := by
  induction m using sysexPackets.induct with
  | case1 => rfl
  | case2 a => simp [sysexPackets]
  | case3 a b => simp [sysexPackets]
  | case4 a b c => simp [sysexPackets]
  | case5 a b c d rest ih => simp [sysexPackets, ih]; omega

/-- The single-message encoder on a SysEx span is the SysEx framing (R182). -/
theorem spanPackets_sysex (rest : List Byte) : spanPackets (0xF0#8 :: rest) = sysexPackets (0xF0#8 :: rest) := by
  simp [spanPackets]

end Sys2Proof.Machine
end

