-- ==== Sys2Proof/Laws/PerInstr.lean ====
section
/-! SUPPORT. Statements about every instruction, one lemma per constructor. -/

namespace Sys2Proof.Laws.EncodingHead

/-- The instruction's encoding starts with an assigned opcode byte (30_encoding.md R82, R84). -/
def Statement (i : Instr) : Prop := ∃ op t, encodeInstr i = op :: t ∧ op ∈ assignedOpcodes

/-- From the bytes of one instruction to its statement. -/
theorem of_bytes {i : Instr} {op : Byte} {t : List Byte} (h : encodeInstr i = op :: t)
    (hop : op ∈ assignedOpcodes) : Statement i := ⟨op, t, h, hop⟩

theorem qwrite (b : Byte) : Statement (.qwrite b) := of_bytes rfl (by decide)
theorem qread : Statement (.qread) := of_bytes rfl (by decide)
theorem qflush : Statement (.qflush) := of_bytes rfl (by decide)
theorem qreadable : Statement (.qreadable) := of_bytes rfl (by decide)
theorem qisempty : Statement (.qisempty) := of_bytes rfl (by decide)
theorem decode (p : List Byte) : Statement (.decode p) := of_bytes rfl (by decide)
theorem rxArm : Statement (.rxArm) := of_bytes rfl (by decide)
theorem rxFlush : Statement (.rxFlush) := of_bytes rfl (by decide)
theorem rxActive : Statement (.rxActive) := of_bytes rfl (by decide)
theorem encode (m : List Byte) : Statement (.encode m) := of_bytes rfl (by decide)
theorem encodeSingle (m : List Byte) : Statement (.encodeSingle m) := of_bytes rfl (by decide)
theorem txTake : Statement (.txTake) := of_bytes rfl (by decide)
theorem txRelease : Statement (.txRelease) := of_bytes rfl (by decide)
theorem status : Statement (.status) := of_bytes rfl (by decide)
theorem usbmidiCin0 (cable : Nibble) (m0 : Byte) (m1 : Byte) (m2 : Byte) : Statement (.usbmidiCin0 cable m0 m1 m2) := of_bytes rfl (by decide)
theorem usbmidiCin1 (cable : Nibble) (m0 : Byte) (m1 : Byte) (m2 : Byte) : Statement (.usbmidiCin1 cable m0 m1 m2) := of_bytes rfl (by decide)
theorem usbmidiCin2 (cable : Nibble) (m0 : Byte) (m1 : Byte) (m2 : Byte) : Statement (.usbmidiCin2 cable m0 m1 m2) := of_bytes rfl (by decide)
theorem usbmidiCin3 (cable : Nibble) (m0 : Byte) (m1 : Byte) (m2 : Byte) : Statement (.usbmidiCin3 cable m0 m1 m2) := of_bytes rfl (by decide)
theorem usbmidiCin4 (cable : Nibble) (m0 : Byte) (m1 : Byte) (m2 : Byte) : Statement (.usbmidiCin4 cable m0 m1 m2) := of_bytes rfl (by decide)
theorem usbmidiCin5 (cable : Nibble) (m0 : Byte) (m1 : Byte) (m2 : Byte) : Statement (.usbmidiCin5 cable m0 m1 m2) := of_bytes rfl (by decide)
theorem usbmidiCin6 (cable : Nibble) (m0 : Byte) (m1 : Byte) (m2 : Byte) : Statement (.usbmidiCin6 cable m0 m1 m2) := of_bytes rfl (by decide)
theorem usbmidiCin7 (cable : Nibble) (m0 : Byte) (m1 : Byte) (m2 : Byte) : Statement (.usbmidiCin7 cable m0 m1 m2) := of_bytes rfl (by decide)
theorem usbmidiCin8 (cable : Nibble) (m0 : Byte) (m1 : Byte) (m2 : Byte) : Statement (.usbmidiCin8 cable m0 m1 m2) := of_bytes rfl (by decide)
theorem usbmidiCin9 (cable : Nibble) (m0 : Byte) (m1 : Byte) (m2 : Byte) : Statement (.usbmidiCin9 cable m0 m1 m2) := of_bytes rfl (by decide)
theorem usbmidiCinA (cable : Nibble) (m0 : Byte) (m1 : Byte) (m2 : Byte) : Statement (.usbmidiCinA cable m0 m1 m2) := of_bytes rfl (by decide)
theorem usbmidiCinB (cable : Nibble) (m0 : Byte) (m1 : Byte) (m2 : Byte) : Statement (.usbmidiCinB cable m0 m1 m2) := of_bytes rfl (by decide)
theorem usbmidiCinC (cable : Nibble) (m0 : Byte) (m1 : Byte) (m2 : Byte) : Statement (.usbmidiCinC cable m0 m1 m2) := of_bytes rfl (by decide)
theorem usbmidiCinD (cable : Nibble) (m0 : Byte) (m1 : Byte) (m2 : Byte) : Statement (.usbmidiCinD cable m0 m1 m2) := of_bytes rfl (by decide)
theorem usbmidiCinE (cable : Nibble) (m0 : Byte) (m1 : Byte) (m2 : Byte) : Statement (.usbmidiCinE cable m0 m1 m2) := of_bytes rfl (by decide)
theorem usbmidiCinF (cable : Nibble) (m0 : Byte) (m1 : Byte) (m2 : Byte) : Statement (.usbmidiCinF cable m0 m1 m2) := of_bytes rfl (by decide)
theorem midiCv3_8n (ch : Nibble) (rest : List Byte) : Statement (.midiCv3_8n ch rest) := of_bytes rfl (by decide)
theorem midiCv3_9n (ch : Nibble) (rest : List Byte) : Statement (.midiCv3_9n ch rest) := of_bytes rfl (by decide)
theorem midiCv3_An (ch : Nibble) (rest : List Byte) : Statement (.midiCv3_An ch rest) := of_bytes rfl (by decide)
theorem midiCv3_Bn (ch : Nibble) (rest : List Byte) : Statement (.midiCv3_Bn ch rest) := of_bytes rfl (by decide)
theorem midiCv2_Cn (ch : Nibble) (rest : List Byte) : Statement (.midiCv2_Cn ch rest) := of_bytes rfl (by decide)
theorem midiCv2_Dn (ch : Nibble) (rest : List Byte) : Statement (.midiCv2_Dn ch rest) := of_bytes rfl (by decide)
theorem midiCv3_En (ch : Nibble) (rest : List Byte) : Statement (.midiCv3_En ch rest) := of_bytes rfl (by decide)
theorem midiLeadingData (d : BitVec 7) (rest : List Byte) : Statement (.midiLeadingData d rest) := of_bytes rfl (by decide)
theorem midiSysex (rest : List Byte) : Statement (.midiSysex rest) := of_bytes rfl (by decide)
theorem midiSc2_F1 (rest : List Byte) : Statement (.midiSc2_F1 rest) := of_bytes rfl (by decide)
theorem midiSc3_F2 (rest : List Byte) : Statement (.midiSc3_F2 rest) := of_bytes rfl (by decide)
theorem midiSc2_F3 (rest : List Byte) : Statement (.midiSc2_F3 rest) := of_bytes rfl (by decide)
theorem midi1b_F4_F7 (lo : BitVec 2) (rest : List Byte) : Statement (.midi1b_F4_F7 lo rest) := of_bytes rfl (by decide)
theorem midiRt_F8_FF (lo : BitVec 3) (rest : List Byte) : Statement (.midiRt_F8_FF lo rest) := of_bytes rfl (by decide)

end Sys2Proof.Laws.EncodingHead
end

