-- ==== Sys2Proof/Tests/Slice0.lean ====
section
/-! SUPPORT. The model's own tests: expected results are those of spec/95_test_vectors.md (named in each docstring) or
written out from the encoding rules; and, for every statement with hypotheses, a witness that meets them. -/

namespace Sys2Proof.Tests

open Sys2Proof.Machine

/-- A block of capacity `cap` and scratch size `size`, not faulted, with the given storages. -/
def block (cap size : Nat) (q scr : List Byte) (armed : Bool) : State where
  cmdPort := []
  respPort := []
  q := q
  rxActive := armed
  scr := scr
  fault := 0x00#8
  params := ⟨cap, size⟩

/-- The next state of an outcome. -/
def after (o : Out) : Option State :=
  match o with
  | .next s => some s
  | _ => none

/-! Well-formedness: an ill-formed term for each check. -/

theorem test_decode_of_whole_packet_ill_formed : ¬ (Instr.decode [0x09, 0x90, 0x3C, 0x7F]).WellFormed := by decide

theorem test_encode_too_long_ill_formed (m : List Byte) (h : m.length = 65536) : ¬ (Instr.encode m).WellFormed := by
  simp [Instr.WellFormed, h]

theorem test_encode_single_of_span_ill_formed : ¬ (Instr.encodeSingle [0xF8]).WellFormed := by decide

theorem test_status_rows_too_long_ill_formed (r : List Byte) (h : r.length = 65535) :
    ¬ (Instr.midiCv3_8n 0 r).WellFormed ∧
    ¬ (Instr.midiCv3_9n 0 r).WellFormed ∧
    ¬ (Instr.midiCv3_An 0 r).WellFormed ∧
    ¬ (Instr.midiCv3_Bn 0 r).WellFormed ∧
    ¬ (Instr.midiCv2_Cn 0 r).WellFormed ∧
    ¬ (Instr.midiCv2_Dn 0 r).WellFormed ∧
    ¬ (Instr.midiCv3_En 0 r).WellFormed ∧
    ¬ (Instr.midiLeadingData 0 r).WellFormed ∧
    ¬ (Instr.midiSysex r).WellFormed ∧
    ¬ (Instr.midiSc2_F1 r).WellFormed ∧
    ¬ (Instr.midiSc3_F2 r).WellFormed ∧
    ¬ (Instr.midiSc2_F3 r).WellFormed ∧
    ¬ (Instr.midi1b_F4_F7 0 r).WellFormed ∧
    ¬ (Instr.midiRt_F8_FF 0 r).WellFormed := by
  simp [Instr.WellFormed, h]

/-! Decoding: every row from a word written out from 30_encoding.md R82, R84, R90, R94. -/

theorem test_decode_queue_rows :
    decodePort [0x01, 0x3C] = .instr (.qwrite 0x3C) [] ∧
    decodePort [0x02] = .instr (.qread) [] ∧
    decodePort [0x03] = .instr (.qflush) [] ∧
    decodePort [0x04] = .instr (.qreadable) [] ∧
    decodePort [0x05] = .instr (.qisempty) [] := by decide

theorem test_decode_control_rows :
    decodePort [0x10, 0x03, 0x09, 0x90, 0x3C] = .instr (.decode [0x09, 0x90, 0x3C]) [] ∧
    decodePort [0x10, 0x00] = .instr (.decode []) [] ∧
    decodePort [0x20] = .instr (.rxArm) [] ∧
    decodePort [0x21] = .instr (.rxFlush) [] ∧
    decodePort [0x22] = .instr (.rxActive) [] ∧
    decodePort [0x32] = .instr (.txTake) [] ∧
    decodePort [0x33] = .instr (.txRelease) [] ∧
    decodePort [0x7F] = .instr (.status) [] := by decide

theorem test_decode_packet_rows_low :
    decodePort [0x10, 0x04, 0x10, 0xA1, 0xB2, 0xC3] = .instr (.usbmidiCin0 0x1 0xA1 0xB2 0xC3) [] ∧
    decodePort [0x10, 0x04, 0x11, 0xA1, 0xB2, 0xC3] = .instr (.usbmidiCin1 0x1 0xA1 0xB2 0xC3) [] ∧
    decodePort [0x10, 0x04, 0x12, 0xA1, 0xB2, 0xC3] = .instr (.usbmidiCin2 0x1 0xA1 0xB2 0xC3) [] ∧
    decodePort [0x10, 0x04, 0x13, 0xA1, 0xB2, 0xC3] = .instr (.usbmidiCin3 0x1 0xA1 0xB2 0xC3) [] ∧
    decodePort [0x10, 0x04, 0x14, 0xA1, 0xB2, 0xC3] = .instr (.usbmidiCin4 0x1 0xA1 0xB2 0xC3) [] ∧
    decodePort [0x10, 0x04, 0x15, 0xA1, 0xB2, 0xC3] = .instr (.usbmidiCin5 0x1 0xA1 0xB2 0xC3) [] ∧
    decodePort [0x10, 0x04, 0x16, 0xA1, 0xB2, 0xC3] = .instr (.usbmidiCin6 0x1 0xA1 0xB2 0xC3) [] ∧
    decodePort [0x10, 0x04, 0x17, 0xA1, 0xB2, 0xC3] = .instr (.usbmidiCin7 0x1 0xA1 0xB2 0xC3) [] := by decide

theorem test_decode_packet_rows_high :
    decodePort [0x10, 0x04, 0xF8, 0xA1, 0xB2, 0xC3] = .instr (.usbmidiCin8 0xF 0xA1 0xB2 0xC3) [] ∧
    decodePort [0x10, 0x04, 0xF9, 0xA1, 0xB2, 0xC3] = .instr (.usbmidiCin9 0xF 0xA1 0xB2 0xC3) [] ∧
    decodePort [0x10, 0x04, 0xFA, 0xA1, 0xB2, 0xC3] = .instr (.usbmidiCinA 0xF 0xA1 0xB2 0xC3) [] ∧
    decodePort [0x10, 0x04, 0xFB, 0xA1, 0xB2, 0xC3] = .instr (.usbmidiCinB 0xF 0xA1 0xB2 0xC3) [] ∧
    decodePort [0x10, 0x04, 0xFC, 0xA1, 0xB2, 0xC3] = .instr (.usbmidiCinC 0xF 0xA1 0xB2 0xC3) [] ∧
    decodePort [0x10, 0x04, 0xFD, 0xA1, 0xB2, 0xC3] = .instr (.usbmidiCinD 0xF 0xA1 0xB2 0xC3) [] ∧
    decodePort [0x10, 0x04, 0xFE, 0xA1, 0xB2, 0xC3] = .instr (.usbmidiCinE 0xF 0xA1 0xB2 0xC3) [] ∧
    decodePort [0x10, 0x04, 0xFF, 0xA1, 0xB2, 0xC3] = .instr (.usbmidiCinF 0xF 0xA1 0xB2 0xC3) [] := by decide

theorem test_decode_encode_rows :
    decodePort [0x30, 0x00, 0x03, 0x90, 0x3C, 0x7F] = .instr (.encode [0x90, 0x3C, 0x7F]) [] ∧
    decodePort [0x30, 0x00, 0x00] = .instr (.encode []) [] ∧
    decodePort [0x31, 0x00, 0x00] = .instr (.encodeSingle []) [] := by decide +kernel

theorem test_decode_channel_voice_rows :
    decodePort [0x31, 0x00, 0x03, 0x81, 0x3C, 0x40] = .instr (.midiCv3_8n 0x1 [0x3C, 0x40]) [] ∧
    decodePort [0x31, 0x00, 0x03, 0x9F, 0x3C, 0x7F] = .instr (.midiCv3_9n 0xF [0x3C, 0x7F]) [] ∧
    decodePort [0x31, 0x00, 0x03, 0xA0, 0x3C, 0x10] = .instr (.midiCv3_An 0x0 [0x3C, 0x10]) [] ∧
    decodePort [0x31, 0x00, 0x03, 0xB0, 0x07, 0x64] = .instr (.midiCv3_Bn 0x0 [0x07, 0x64]) [] ∧
    decodePort [0x31, 0x00, 0x02, 0xC5, 0x05] = .instr (.midiCv2_Cn 0x5 [0x05]) [] ∧
    decodePort [0x31, 0x00, 0x02, 0xD0, 0x40] = .instr (.midiCv2_Dn 0x0 [0x40]) [] ∧
    decodePort [0x31, 0x00, 0x03, 0xE0, 0x00, 0x40] = .instr (.midiCv3_En 0x0 [0x00, 0x40]) [] ∧
    decodePort [0x31, 0x00, 0x03, 0x3C, 0x7F, 0x00] = .instr (.midiLeadingData 0x3C [0x7F, 0x00]) [] := by decide +kernel

theorem test_decode_system_rows :
    decodePort [0x31, 0x00, 0x03, 0xF0, 0x01, 0xF7] = .instr (.midiSysex [0x01, 0xF7]) [] ∧
    decodePort [0x31, 0x00, 0x02, 0xF1, 0x12] = .instr (.midiSc2_F1 [0x12]) [] ∧
    decodePort [0x31, 0x00, 0x03, 0xF2, 0x10, 0x20] = .instr (.midiSc3_F2 [0x10, 0x20]) [] ∧
    decodePort [0x31, 0x00, 0x02, 0xF3, 0x05] = .instr (.midiSc2_F3 [0x05]) [] ∧
    decodePort [0x31, 0x00, 0x01, 0xF7] = .instr (.midi1b_F4_F7 0x3 []) [] ∧
    decodePort [0x31, 0x00, 0x01, 0xF8] = .instr (.midiRt_F8_FF 0x0 []) [] ∧
    decodePort [0x31, 0x00, 0x01, 0xFF] = .instr (.midiRt_F8_FF 0x7 []) [] := by decide +kernel

/-- V-D30, V-F8: a command with a byte missing holds; V-D28: `10 05` is a bad length; V-F3: unassigned opcodes. -/
theorem test_decode_stops :
    decodePort [0x10, 0x04, 0x09, 0x90, 0x3C] = .hold ∧ decodePort [0x30, 0x00] = .hold ∧ decodePort [] = .hold ∧
    decodePort [0x10, 0x05] = .badLength [] ∧
    decodePort [0x06, 0x01] = .illegalOpcode [0x01] ∧ decodePort [0x7E] = .illegalOpcode [] ∧
    decodePort [0x80] = .illegalOpcode [] := by decide

/-- The table's words: an opcode, a packet's byte 0, a status byte (the log's entry 9). -/
theorem test_table_words :
    decodeTableWord 8 0x10 = some (.decode []) ∧ decodeTableWord 8 0x09 = some (.usbmidiCin9 0 0 0 0) := by decide

/-! The queue (95_test_vectors.md 2.1). -/

/-- V-Q1: capacity 2; the second byte fits with response 00. -/
theorem test_qwrite_fits : after (exec (.qwrite 0xBB) (block 2 64 [0xAA] [] false)) =
    some { block 2 64 [0xAA, 0xBB] [] false with respPort := [0x00] } := by decide

/-- V-Q1, V-Q7: the third byte is dropped with response 01, and an overflow does not disarm. -/
theorem test_qwrite_overflows : after (exec (.qwrite 0xCC) (block 2 64 [0xAA, 0xBB] [] true)) =
    some { block 2 64 [0xAA, 0xBB] [] true with respPort := [0x01] } := by decide

/-- R122's example: Q = [90 3C]. -/
theorem test_qread_pops : after (exec .qread (block 16 64 [0x90, 0x3C] [] false)) =
    some { block 16 64 [0x3C] [] false with respPort := [0x90] } := by decide

/-- V-Q4: QREAD of the empty queue faults with no response. -/
theorem test_qread_empty : after (exec .qread (block 16 64 [] [] false)) =
    some { block 16 64 [] [] false with fault := 0x01 } := by decide

/-- R123's example. -/
theorem test_qflush : after (exec .qflush (block 16 64 [0x01, 0x02, 0x03] [] true)) =
    some (block 16 64 [] [] true) := by decide

/-- V-Q8: 256 bytes respond 01 00, high byte first. -/
theorem test_qreadable : (after (exec .qreadable (block 300 64 (List.replicate 256 0x00) [] false))).map
    State.respPort = some [0x01, 0x00] := by decide +kernel

/-- V-Q10 and V-Q2: empty and not empty. -/
theorem test_qisempty :
    (after (exec .qisempty (block 16 64 [] [] false))).map State.respPort = some [0x01] ∧
    (after (exec .qisempty (block 2 64 [0xAA, 0xBB] [] false))).map State.respPort = some [0x00] := by decide

/-- V-Q6 at its wrap, on the ring view of capacity 2: 03 is written at index 0, and the next pop gives 02. -/
theorem test_ring_wraps :
    (Ring.push 2 0x03 ⟨[0x01, 0x02], 1, 1⟩).1.contents 2 = [0x02, 0x03] ∧
    (Ring.pop 2 ⟨[0x03, 0x02], 1, 2⟩).map Prod.fst = some 0x02 := by decide

/-! The decoder (95_test_vectors.md 2.2). -/

/-- V-D1 to V-D8: the packet [c A1 B2 C3] into an armed block. -/
theorem test_packet_rows_low :
    after (exec (.usbmidiCin0 0 0xA1 0xB2 0xC3) (block 16 64 [] [] true)) =
      some (block 16 64 [] [] true) ∧
    after (exec (.usbmidiCin1 0 0xA1 0xB2 0xC3) (block 16 64 [] [] true)) =
      some (block 16 64 [] [] true) ∧
    after (exec (.usbmidiCin2 0 0xA1 0xB2 0xC3) (block 16 64 [] [] true)) =
      some (block 16 64 [0xA1, 0xB2] [] true) ∧
    after (exec (.usbmidiCin3 0 0xA1 0xB2 0xC3) (block 16 64 [] [] true)) =
      some (block 16 64 [0xA1, 0xB2, 0xC3] [] true) ∧
    after (exec (.usbmidiCin4 0 0xA1 0xB2 0xC3) (block 16 64 [] [] true)) =
      some (block 16 64 [0xA1, 0xB2, 0xC3] [] true) ∧
    after (exec (.usbmidiCin5 0 0xA1 0xB2 0xC3) (block 16 64 [] [] true)) =
      some (block 16 64 [0xA1] [] true) ∧
    after (exec (.usbmidiCin6 0 0xA1 0xB2 0xC3) (block 16 64 [] [] true)) =
      some (block 16 64 [0xA1, 0xB2] [] true) ∧
    after (exec (.usbmidiCin7 0 0xA1 0xB2 0xC3) (block 16 64 [] [] true)) =
      some (block 16 64 [0xA1, 0xB2, 0xC3] [] true) := by decide

/-- V-D9 to V-D16: the packet [c A1 B2 C3] into an armed block. -/
theorem test_packet_rows_high :
    after (exec (.usbmidiCin8 0 0xA1 0xB2 0xC3) (block 16 64 [] [] true)) =
      some (block 16 64 [0xA1, 0xB2, 0xC3] [] true) ∧
    after (exec (.usbmidiCin9 0 0xA1 0xB2 0xC3) (block 16 64 [] [] true)) =
      some (block 16 64 [0xA1, 0xB2, 0xC3] [] true) ∧
    after (exec (.usbmidiCinA 0 0xA1 0xB2 0xC3) (block 16 64 [] [] true)) =
      some (block 16 64 [0xA1, 0xB2, 0xC3] [] true) ∧
    after (exec (.usbmidiCinB 0 0xA1 0xB2 0xC3) (block 16 64 [] [] true)) =
      some (block 16 64 [0xA1, 0xB2, 0xC3] [] true) ∧
    after (exec (.usbmidiCinC 0 0xA1 0xB2 0xC3) (block 16 64 [] [] true)) =
      some (block 16 64 [0xA1, 0xB2] [] true) ∧
    after (exec (.usbmidiCinD 0 0xA1 0xB2 0xC3) (block 16 64 [] [] true)) =
      some (block 16 64 [0xA1, 0xB2] [] true) ∧
    after (exec (.usbmidiCinE 0 0xA1 0xB2 0xC3) (block 16 64 [] [] true)) =
      some (block 16 64 [0xA1, 0xB2, 0xC3] [] true) ∧
    after (exec (.usbmidiCinF 0 0xA1 0xB2 0xC3) (block 16 64 [] [] true)) =
      some (block 16 64 [0xA1] [] true) := by decide

/-- V-D19, V-D24: a packet of 3 bytes is ignored; so is a whole packet while disarmed. -/
theorem test_decode_ignored :
    after (exec (.decode [0x09, 0x90, 0x3C]) (block 16 64 [] [] true)) = some (block 16 64 [] [] true) ∧
    after (exec (.usbmidiCin9 0 0x90 0x3C 0x7F) (block 16 64 [] [] false)) = some (block 16 64 [] [] false) := by
  decide

/-- V-D25: capacity 4; 90 and 3C fit, 7F overflows and disarms. -/
theorem test_fail_stop : after (exec (.usbmidiCin9 0 0x90 0x3C 0x7F) (block 4 64 [0xAA, 0xBB] [] true)) =
    some (block 4 64 [0xAA, 0xBB, 0x90, 0x3C] [] false) := by decide

/-- V-D26, V-D27: an exact fill does not disarm; the next packet does. -/
theorem test_exact_fill :
    after (exec (.usbmidiCin9 0 0x90 0x3C 0x7F) (block 3 64 [] [] true)) =
      some (block 3 64 [0x90, 0x3C, 0x7F] [] true) ∧
    after (exec (.usbmidiCin5 0 0xF8 0 0) (block 3 64 [0x90, 0x3C, 0x7F] [] true)) =
      some (block 3 64 [0x90, 0x3C, 0x7F] [] false) := by decide

/-! Receive control (95_test_vectors.md 2.3). -/

/-- V-R7: RX_ARM empties the queue and arms. -/
theorem test_rx_arm : after (exec .rxArm (block 16 64 [0x90] [] false)) = some (block 16 64 [] [] true) := by decide

/-- V-R3: RX_FLUSH does not re-arm. -/
theorem test_rx_flush : after (exec .rxFlush (block 1 64 [0x90] [] false)) = some (block 1 64 [] [] false) := by
  decide

/-- V-R1: 01 armed, 00 disarmed. -/
theorem test_rx_active :
    (after (exec .rxActive (block 16 64 [] [] true))).map State.respPort = some [0x01] ∧
    (after (exec .rxActive (block 16 64 [] [] false))).map State.respPort = some [0x00] := by decide

/-! The encoder (95_test_vectors.md 2.4). -/

/-- V-E2 to V-E8. -/
theorem test_channel_voice_rows :
    after (exec (.midiCv3_8n 0 [0x3C, 0x40]) (block 16 64 [] [] false)) =
      some (block 16 64 [] [0x08, 0x80, 0x3C, 0x40] false) ∧
    after (exec (.midiCv3_9n 0xF [0x3C, 0x7F]) (block 16 64 [] [] false)) =
      some (block 16 64 [] [0x09, 0x9F, 0x3C, 0x7F] false) ∧
    after (exec (.midiCv3_An 0 [0x3C, 0x10]) (block 16 64 [] [] false)) =
      some (block 16 64 [] [0x0A, 0xA0, 0x3C, 0x10] false) ∧
    after (exec (.midiCv3_Bn 0 [0x07, 0x64]) (block 16 64 [] [] false)) =
      some (block 16 64 [] [0x0B, 0xB0, 0x07, 0x64] false) ∧
    after (exec (.midiCv2_Cn 0 [0x05]) (block 16 64 [] [] false)) =
      some (block 16 64 [] [0x0C, 0xC0, 0x05, 0x00] false) ∧
    after (exec (.midiCv2_Dn 0 [0x40]) (block 16 64 [] [] false)) =
      some (block 16 64 [] [0x0D, 0xD0, 0x40, 0x00] false) ∧
    after (exec (.midiCv3_En 0 [0x00, 0x40]) (block 16 64 [] [] false)) =
      some (block 16 64 [] [0x0E, 0xE0, 0x00, 0x40] false) := by decide

/-- V-E11, V-E13, V-E15, V-E22, V-E34. -/
theorem test_system_rows :
    after (exec (.midiSc3_F2 [0x10, 0x20]) (block 16 64 [] [] false)) =
      some (block 16 64 [] [0x03, 0xF2, 0x10, 0x20] false) ∧
    after (exec (.midiSc2_F1 [0x12]) (block 16 64 [] [] false)) =
      some (block 16 64 [] [0x02, 0xF1, 0x12, 0x00] false) ∧
    after (exec (.midiSc2_F3 [0x05]) (block 16 64 [] [] false)) =
      some (block 16 64 [] [0x02, 0xF3, 0x05, 0x00] false) ∧
    after (exec (.midi1b_F4_F7 3 []) (block 16 64 [] [] false)) =
      some (block 16 64 [] [0x05, 0xF7, 0x00, 0x00] false) ∧
    after (exec (.midiRt_F8_FF 7 []) (block 16 64 [] [] false)) =
      some (block 16 64 [] [0x05, 0xFF, 0x00, 0x00] false) ∧
    after (exec (.midiLeadingData 0x3C [0x7F, 0x00]) (block 16 64 [] [] false)) =
      some (block 16 64 [] [0x03, 0x3C, 0x7F, 0x00] false) ∧
    after (exec (.midiSysex [0x01, 0x02, 0x03, 0x04, 0xF7]) (block 16 64 [] [] false)) =
      some (block 16 64 [] [0x04, 0xF0, 0x01, 0x02, 0x07, 0x03, 0x04, 0xF7] false) := by decide

/-- V-E9, V-E10, V-E12, V-E14, V-E17, V-E24. -/
theorem test_wrong_sizes_dropped :
    after (exec (.midiCv3_9n 0 [0x3C]) (block 16 64 [] [] false)) =
      some (block 16 64 [] [] false) ∧
    after (exec (.midiCv2_Cn 0 [0x05, 0x06]) (block 16 64 [] [] false)) =
      some (block 16 64 [] [] false) ∧
    after (exec (.midiSc3_F2 [0x10]) (block 16 64 [] [] false)) =
      some (block 16 64 [] [] false) ∧
    after (exec (.midiSc2_F1 []) (block 16 64 [] [] false)) =
      some (block 16 64 [] [] false) ∧
    after (exec (.midiSc2_F3 [0x05, 0x06]) (block 16 64 [] [] false)) =
      some (block 16 64 [] [] false) ∧
    after (exec (.midiRt_F8_FF 0 [0x00]) (block 16 64 [] [] false)) =
      some (block 16 64 [] [] false) ∧
    after (exec (.midiLeadingData 0x3C [0x7F]) (block 16 64 [] [] false)) =
      some (block 16 64 [] [] false) := by decide

/-- V-E18, V-E19 (E2), V-E16, V-E27. -/
theorem test_encode_scans :
    after (exec (.encode [0x90, 0x3C, 0x7F, 0x80, 0x3C, 0x40]) (block 16 64 [] [] false)) =
      some (block 16 64 [] [0x09, 0x90, 0x3C, 0x7F, 0x08, 0x80, 0x3C, 0x40] false) ∧
    after (exec (.encode [0xF0, 0x01, 0x02, 0x03, 0x04, 0xF7]) (block 16 64 [] [] false)) =
      some (block 16 64 [] [0x04, 0xF0, 0x01, 0x02, 0x06, 0x03, 0x04, 0x00, 0x05, 0xF7, 0x00, 0x00] false) ∧
    after (exec (.encode [0x90, 0x3C, 0x7F, 0x3E, 0x7F]) (block 16 64 [] [] false)) =
      some (block 16 64 [] [] false) ∧
    after (exec (.encode [0xF0, 0x01, 0xF8, 0x02, 0xF7]) (block 16 64 [] [] false)) =
      some (block 16 64 [] [0x06, 0xF0, 0x01, 0x00, 0x05, 0xF7, 0x00, 0x00] false) := by decide

/-- V-E19 (E2), V-E18, V-E25. -/
theorem test_encode_single :
    after (exec (.encodeSingle [0xF0, 0x01, 0x02, 0x03, 0x04, 0xF7]) (block 16 64 [] [] false)) =
      some (block 16 64 [] [0x04, 0xF0, 0x01, 0x02, 0x07, 0x03, 0x04, 0xF7] false) ∧
    after (exec (.encodeSingle [0x90, 0x3C, 0x7F, 0x80, 0x3C, 0x40]) (block 16 64 [] [] false)) =
      some (block 16 64 [] [] false) ∧
    after (exec (.encodeSingle []) (block 16 64 [] [] false)) =
      some (block 16 64 [] [] false) := by decide

/-- V-E29 to V-E36, the packet counts and terminal CINs for n = 1, 2, 3, 4, 7, 8. -/
theorem test_sysex_framing :
    sysexPackets [0xF0] = [⟨0x05, 0xF0, 0x00, 0x00⟩] ∧
    sysexPackets [0xF0, 0xF7] = [⟨0x06, 0xF0, 0xF7, 0x00⟩] ∧
    sysexPackets [0xF0, 0x01, 0xF7] = [⟨0x07, 0xF0, 0x01, 0xF7⟩] ∧
    sysexPackets [0xF0, 0x01, 0x02, 0xF7] = [⟨0x04, 0xF0, 0x01, 0x02⟩, ⟨0x05, 0xF7, 0x00, 0x00⟩] ∧
    sysexPackets [0xF0, 0x01, 0x02, 0x03, 0x04, 0x05, 0xF7] =
      [⟨0x04, 0xF0, 0x01, 0x02⟩, ⟨0x04, 0x03, 0x04, 0x05⟩, ⟨0x05, 0xF7, 0x00, 0x00⟩] ∧
    sysexPackets [0xF0, 0x01, 0x02, 0x03, 0x04, 0x05, 0x06, 0xF7] =
      [⟨0x04, 0xF0, 0x01, 0x02⟩, ⟨0x04, 0x03, 0x04, 0x05⟩, ⟨0x06, 0x06, 0xF7, 0x00⟩] := by decide

/-- V-E37: scratch of 8 bytes; the third packet does not fit, the first two stay. -/
theorem test_scratch_overflow : after (exec (.encode [0xF8, 0xFA, 0xFC]) (block 16 8 [] [] false)) =
    some { block 16 8 [] [0x05, 0xF8, 0x00, 0x00, 0x05, 0xFA, 0x00, 0x00] false with fault := 0x02 } := by decide

/-- V-E39: an exact fill of the scratch buffer does not fault. -/
theorem test_scratch_exact_fill : after (exec (.encode [0xF8, 0xFA]) (block 16 8 [] [] false)) =
    some (block 16 8 [] [0x05, 0xF8, 0x00, 0x00, 0x05, 0xFA, 0x00, 0x00] false) := by decide

/-! The hand-off and STATUS (95_test_vectors.md 2.5, 2.6). -/

/-- V-T2: the length, high byte first, then the packet; the scratch buffer stays. -/
theorem test_tx_take : after (exec .txTake (block 16 64 [] [0x09, 0x90, 0x3C, 0x7F] false)) =
    some { block 16 64 [] [0x09, 0x90, 0x3C, 0x7F] false with
      respPort := [0x00, 0x04, 0x09, 0x90, 0x3C, 0x7F] } := by decide

/-- V-T3: TX_RELEASE empties the scratch buffer. -/
theorem test_tx_release : after (exec .txRelease (block 16 64 [] [0x09, 0x90, 0x3C, 0x7F] false)) =
    some (block 16 64 [] [] false) := by decide

/-- V-F1, P5: STATUS responds 00, or the fault code in the faulted state. -/
theorem test_status :
    (after (exec .status (block 16 64 [] [] false))).map State.respPort = some [0x00] ∧
    (after (exec .status { block 16 64 [] [] false with fault := 0x01 })).map State.respPort = some [0x01] := by
  decide

/-! One step at the port. -/

/-- P1: the DECODE at the front of the port runs, and the bytes behind it stay. -/
theorem test_step_runs : after (step { block 16 64 [] [] true with
      cmdPort := [0x10, 0x04, 0x09, 0x90, 0x3C, 0x7F, 0x04] }) =
    some { block 16 64 [0x90, 0x3C, 0x7F] [] true with cmdPort := [0x04] } := by decide

/-- V-F2: 00 faults when it arrives; V-D29: `10 05` faults and no packet byte is consumed. -/
theorem test_step_faults :
    after (step { block 16 64 [] [] false with cmdPort := [0x00, 0x01, 0x55] }) =
      some { block 16 64 [] [] false with cmdPort := [0x01, 0x55], fault := 0x03 } ∧
    after (step { block 16 64 [] [] true with cmdPort := [0x10, 0x05, 0x09] }) =
      some { block 16 64 [] [] true with cmdPort := [0x09], fault := 0x04 } := by decide

/-- V-D29: in the faulted state 09 is discarded and 7F runs STATUS. -/
theorem test_step_faulted :
    after (step { block 16 64 [] [] true with cmdPort := [0x09, 0x7F], fault := 0x04 }) =
      some { block 16 64 [] [] true with cmdPort := [0x7F], fault := 0x04 } ∧
    after (step { block 16 64 [] [] true with cmdPort := [0x7F], fault := 0x04 }) =
      some { block 16 64 [] [] true with respPort := [0x04], fault := 0x04 } := by decide

/-- V-F8, V-I2: reset discards a partial command and everything else but the parameters. -/
theorem test_reset : hostReset { block 2 8 [0x90] [0x05, 0xF8, 0x00, 0x00] true with
      cmdPort := [0x30, 0x00], respPort := [0x01], fault := 0x01 } = block 2 8 [] [] false := by decide

/-- The first instruction after reset, placed by its table word, runs: QWRITE 00 (R121). -/
theorem test_first_instruction : step (State.reset.withFetchWord 8 0x01) =
    .next { State.reset with q := [0x00], respPort := [0x00] } := rfl

/-! Witnesses: a state and operands that meet each statement's hypotheses, one per clause where they differ. -/

/-- An armed block of capacity 16 and scratch size 64 with empty storages. -/
abbrev armed : State := block 16 64 [] [] true

/-- The same, in the faulted state. -/
abbrev faulted : State := { armed with fault := 0x01#8 }

theorem witness_StepRunsDecoded : ∃ (s : State) (i : Instr) (rest : List Byte), s.fault = 0x00#8 ∧ i.WellFormed ∧
    decodePort s.cmdPort = .instr i rest := ⟨{ armed with cmdPort := [0x01, 0x7F, 0x02] }, .qwrite 0x7F, [0x02], by decide⟩

theorem witness_IncompleteCommandHolds : ∃ (s s' : State) (i : Instr) (missing : List Byte), s.fault = 0x00#8 ∧
    s'.fault = 0x00#8 ∧ i.WellFormed ∧ s.cmdPort = encodeInstr i ∧ missing ≠ [] ∧
    encodeInstr i = s'.cmdPort ++ missing := 
  ⟨{ armed with cmdPort := [0x01, 0x7F] }, { armed with cmdPort := [0x01] }, .qwrite 0x7F, [0x7F], by decide⟩

theorem witness_DecodeOfEncode : ∃ i : Instr, i.WellFormed ∧ i = .encode [0xF8] := ⟨.encode [0xF8], by decide⟩

theorem witness_EncodeOfDecode : decodePort [0x02, 0x05] = .instr .qread [0x05] := by decide

theorem witness_LaterBytesKeepDecoding : decodePort [0x02, 0x05] = .instr .qread [0x05] ∧
    decodePort [0x00, 0x05] = .illegalOpcode [0x05] ∧ decodePort [0x10, 0x05, 0x09] = .badLength [0x09] := by decide

theorem witness_OverlongDecodeFaults : armed.fault = 0x00#8 ∧ 4 < (0x05#8).toNat ∧ 4 < (0xFF#8).toNat ∧
    { armed with cmdPort := [0x10, 0x05] }.cmdPort = 0x10#8 :: 0x05#8 :: [] := by decide

theorem witness_UnassignedOpcodeFaults : ({ armed with cmdPort := [0x06] }.fault = 0x00#8 ∧
    { armed with cmdPort := [0x06] }.cmdPort = 0x06#8 :: []) ∧
    ({ armed with cmdPort := [0x05] }.fault = 0x00#8 ∧ { armed with cmdPort := [0x05] }.cmdPort = 0x05#8 :: []) := by decide

theorem witness_ResponseCounts : armed.fault = 0x00#8 ∧ (after (exec .txTake armed)).isSome := by decide

/-- For the statements whose only hypothesis is that no fault has been taken: QflushEmpties, QisemptyTests,
RxArmFlushesAndArms, RxFlushKeepsArmed, RxActiveReports, TxReleaseEmptiesScratch. -/
theorem witness_notFaulted : armed.fault = 0x00#8 := by decide

theorem witness_QwritePushesOrOverflows : armed.fault = 0x00#8 ∧ armed.q.length ≠ armed.params.rxqCapacity ∧
    (block 2 64 [0xAA, 0xBB] [] true).fault = 0x00#8 ∧
    (block 2 64 [0xAA, 0xBB] [] true).q.length = (block 2 64 [0xAA, 0xBB] [] true).params.rxqCapacity := by decide

theorem witness_QreadPopsOrFaults : (block 16 64 [0x90] [] true).fault = 0x00#8 ∧ (block 16 64 [0x90] [] true).q = 0x90#8 :: [] ∧
    armed.fault = 0x00#8 ∧ armed.q = [] := by decide

theorem witness_QreadableReportsCount : armed.fault = 0x00#8 ∧ armed.q.length ≤ 65535 := by decide

theorem witness_QueueIsFifo : (block 2 64 [0xAA] [] true).fault = 0x00#8 ∧
    (block 2 64 [0xAA] [] true).q.length + [0xBB#8].length ≤ (block 2 64 [0xAA] [] true).params.rxqCapacity := by decide

theorem witness_RingRefinesQueue : (⟨[0x01, 0x02], 1, 2⟩ : Sys2Proof.Machine.Ring).wf 2 ∧
    (⟨[0x01, 0x02], 1, 1⟩ : Sys2Proof.Machine.Ring).wf 2 ∧ (⟨[0x01], 0, 0⟩ : Sys2Proof.Machine.Ring).wf 1 := by decide

theorem witness_ShortOrDisarmedDecodeIgnored : [0x09#8, 0x90, 0x3C].length < 4 ∧ (block 16 64 [] [] false).rxActive = false ∧
    [0x09#8, 0x90, 0x3C, 0x7F].length ≤ 4 := by decide

theorem witness_PacketRowsEnqueue : armed.fault = 0x00#8 ∧ armed.rxActive = true ∧ armed.q.length + 3 ≤ armed.params.rxqCapacity ∧
    (block 1 64 [] [] true).q.length + 1 ≤ (block 1 64 [] [] true).params.rxqCapacity ∧
    (block 2 64 [] [] true).q.length + 2 ≤ (block 2 64 [] [] true).params.rxqCapacity := by decide

theorem witness_DecodeAppendsOrFailStops : (block 3 64 [] [] true).fault = 0x00#8 ∧ (block 3 64 [] [] true).rxActive = true ∧
    (block 3 64 [] [] true).q.length ≤ (block 3 64 [] [] true).params.rxqCapacity ∧ 2 ≤ (0x02#8 &&& 0x0F#8).toNat ∧
    (block 2 64 [0xAA] [] true).q.length ≤ (block 2 64 [0xAA] [] true).params.rxqCapacity := by decide

theorem witness_FailStopLastsUntilRxArm : (block 16 64 [0x90] [] false).rxActive = false ∧ (block 16 64 [0x90] [] false).fault = 0x00#8 := by decide

theorem witness_CableBitsNotRead : 0x19#8 &&& 0x0F#8 = 0xF9#8 &&& 0x0F#8 := by decide

theorem witness_BytesPastPayloadNotRead : [0xF8#8, 0x11, 0x22].take (payloadSize (cinOf 0x05)) = [0xF8#8, 0x00, 0x00].take (payloadSize (cinOf 0x05)) := by decide

theorem witness_OnlyArmAndFailStopWriteRxActive : (after (exec .rxArm (block 16 64 [] [] false))).map State.rxActive = some true ∧
    (after (exec (.usbmidiCin5 0 0xF8 0 0) (block 1 64 [0x90] [] true))).map State.rxActive = some false ∧
    2 ≤ (0x05#8 &&& 0x0F#8).toNat ∧ 1 < [0x90#8].length + payloadSize (cinOf 0x05) := by decide

theorem witness_EncodeAppendsPackets : armed.fault = 0x00#8 ∧
    armed.scr.length + 4 * (scanPackets [0x90, 0x3C, 0x7F]).length ≤ armed.params.txScratchBytes ∧
    armed.scr.length + 4 * (spanPackets [0x90, 0x3C, 0x7F]).length ≤ armed.params.txScratchBytes := by decide

theorem witness_ScratchOverflowKeepsEarlierPackets : (block 16 8 [] [] true).fault = 0x00#8 ∧
    (block 16 8 [] [] true).scr.length ≤ (block 16 8 [] [] true).params.txScratchBytes ∧
    (8 - 0) / 4 < (scanPackets [0xF8, 0xFA, 0xFC]).length ∧
    (8 - 0) / 4 < (spanPackets [0xF0, 0x01, 0x02, 0x03, 0x04, 0x05, 0xF7]).length := by decide

/-- For ChannelVoiceRows, SystemCommon3Row, SystemCommon2Rows, OneByteRows. -/
theorem witness_classRows : armed.fault = 0x00#8 ∧ armed.scr.length + 4 ≤ armed.params.txScratchBytes ∧ [0x3C#8].length ≠ 2 ∧
    ([] : List Byte).length ≠ 1 ∧ [0x3C#8] ≠ [] := by decide

theorem witness_LeadingDataRow : armed.fault = 0x00#8 ∧ armed.scr.length + 4 ≤ armed.params.txScratchBytes ∧ [0x3C#8].length ≠ 2 ∧
    ∀ b ∈ [0x3C#8, 0x00], isStatus b = false := by decide

theorem witness_SysexRowAppends : armed.fault = 0x00#8 ∧
    armed.scr.length + 4 * (([0x01#8, 0x02].length + 3) / 3) ≤ armed.params.txScratchBytes := by decide

theorem witness_AtMostOnePacketPerSpan : 0xF1#8 ≠ 0xF0#8 := by decide

theorem witness_RunningStatusDropped : 0x90#8 &&& 0xF0#8 ≠ 0xF0#8 ∧ (∀ c ∈ [0x3C#8, 0x7F, 0x3E, 0x7F], isStatus c = false) ∧
    [0x3C#8, 0x7F, 0x3E, 0x7F].length + 1 ≠ requiredSize 0x90 := by decide

/-- A Note On, a Program Change and a SysEx message with its end byte, with room for all in both storages. -/
theorem witness_EncodeThenDecodeRoundTrip :
    (∀ m ∈ [[0x90#8, 0x3C, 0x7F], [0xC0, 0x05], [0xF0, 0x01], [0xF7]], IsMessage m) ∧
    armed.fault = 0x00#8 ∧ armed.rxActive = true ∧
    armed.q.length + [[0x90#8, 0x3C, 0x7F], [0xC0, 0x05], [0xF0, 0x01], [0xF7]].flatten.length ≤
      armed.params.rxqCapacity ∧
    armed.scr.length + 4 * (scanPackets [[0x90#8, 0x3C, 0x7F], [0xC0, 0x05], [0xF0, 0x01], [0xF7]].flatten).length ≤
      armed.params.txScratchBytes := by
  refine ⟨?_, by decide⟩
  intro m hm
  simp only [List.mem_cons, List.not_mem_nil, or_false] at hm
  rcases hm with rfl | rfl | rfl | rfl <;> exact ⟨_, _, rfl, by decide⟩

theorem witness_TxTakeRespondsScratch : armed.fault = 0x00#8 ∧ armed.scr.length ≤ 65535 := by decide

theorem witness_EncodesAccumulate : armed.fault = 0x00#8 ∧
    armed.scr.length + 4 * ((scanPackets [0x90, 0x3C, 0x7F]).length + (scanPackets [0xF8]).length) ≤
      armed.params.txScratchBytes := by decide

theorem witness_TxSendsAndReleases : armed.params.wf ∧ armed.fault = 0x00#8 ∧ armed.scr = [] ∧
    4 * (scanPackets [0x90, 0x3C, 0x7F]).length ≤ armed.params.txScratchBytes := by decide

theorem witness_FaultedStateRunsStatusOnly : faulted.fault ≠ 0x00#8 ∧ faulted.cmdPort = [] ∧
    { faulted with cmdPort := [0x7F, 0x02] }.cmdPort = 0x7F#8 :: [0x02#8] ∧ 0x02#8 ≠ 0x7F#8 ∧
    { faulted with cmdPort := [0x02] }.cmdPort = 0x02#8 :: [] ∧ Instr.qread ≠ .status := by decide

theorem witness_FaultedStepKeepsState : faulted.fault ≠ 0x00#8 ∧ (after (step { faulted with cmdPort := [0x02] })).isSome := by decide

theorem witness_OneFaultCausePerCommand : armed.fault = 0x00#8 ∧ (after (exec .qread armed)).map State.fault = some 0x01#8 ∧
    (after (exec (.encode [0xF8, 0xFA]) (block 16 4 [] [] true))).map State.fault = some 0x02#8 ∧
    (after (exec (.decode [0, 0, 0, 0, 0]) armed)).map State.fault = some 0x04#8 := by decide

theorem witness_ReadsAreIdempotent : Instr.txTake ∈ [Instr.txTake, .qreadable, .qisempty, .rxActive, .status] := by decide

theorem witness_OnlyWritersWriteStorages : (after (exec (.qwrite 0x55) armed)).map State.q = some [0x55] ∧
    (after (exec (.encode [0xF8]) armed)).map State.scr = some [0x05, 0xF8, 0x00, 0x00] := by decide

theorem witness_RxArmFlushesAndArms : (block 16 64 [0x90] [] false).rxActive = false ∧
    (after (exec .rxArm (block 16 64 [0x90] [] false))).map State.rxActive = some true := by decide

theorem witness_ScanPartitionsInput : [0x3C#8, 0x00] ∈ spans [0x3C, 0x00, 0xF8, 0xFA] ∧
    [0xFA#8] ∈ (spans [0x3C, 0x00, 0xF8, 0xFA]).tail := by decide

theorem witness_ParametersStayInRange : (after (exec .rxArm armed)).isSome ∧ (after (step armed)).isSome := by decide

theorem witness_StepKeepsInv : ∃ s t : State, s.Inv ∧ step s = .next t :=
  ⟨{ armed with cmdPort := [0x30, 0x00, 0x01, 0xF8] }, _,
    ⟨by decide, by decide, by decide, fun k hk => absurd hk (Nat.not_lt_zero _)⟩, rfl⟩

end Sys2Proof.Tests
end

section
/-! PROOFS. The whole block: what no instruction changes, the fault causes of an instruction, and the invariant that
every step keeps. Each is read off `Effect`, which says once what an instruction can do, and `step_cases`. -/

namespace Sys2Proof.Machine

/-! What the two compound state operations leave unchanged. -/

@[simp] theorem copyPayload_params (bs : List Byte) (s : State) : (copyPayload bs s).params = s.params := by
  obtain h | ⟨h, -⟩ := copyPayload_cases bs s <;> simp [h]

@[simp] theorem copyPayload_scr (bs : List Byte) (s : State) : (copyPayload bs s).scr = s.scr := by
  obtain h | ⟨h, -⟩ := copyPayload_cases bs s <;> simp [h]

@[simp] theorem copyPayload_fault (bs : List Byte) (s : State) : (copyPayload bs s).fault = s.fault := by
  obtain h | ⟨h, -⟩ := copyPayload_cases bs s <;> simp [h]

@[simp] theorem emitPackets_params (ps : List Packet) (s : State) : (emitPackets ps s).params = s.params := by
  obtain ⟨k, h | h, -⟩ := emitPackets_cases ps s <;> simp [h]

/-- The encoder's emission takes at most the one fault (R181). -/
theorem emitPackets_fault (ps : List Packet) (s : State) :
    (emitPackets ps s).fault = s.fault ∨ (emitPackets ps s).fault = faultScratchOverflow := by
  obtain ⟨k, h | h, -⟩ := emitPackets_cases ps s <;> simp [h]

/-- The encoder's emission appends some of its packets, in order from the first. -/
theorem emitPackets_scr (ps : List Packet) (s : State) :
    ∃ k, (emitPackets ps s).scr = s.scr ++ packetsBytes (ps.take k) := by
  obtain ⟨k, h | h, -⟩ := emitPackets_cases ps s <;> exact ⟨k, by simp [h]⟩

/-! The parameters (R7, R8, R270). -/

theorem configParams_wf : Config.params.wf := by
  have hq := Config.rxqChoice.isLt
  have ht := Config.txChoice.isLt
  simp only [Params.wf, Config.params]
  omega

theorem Effect.params_eq {i : Instr} {s t : State} (h : Effect i s t) : t.params = s.params := by
  cases h <;> simp

theorem exec_params {i : Instr} {s t : State} (h : exec i s = .next t) : t.params = s.params :=
  (exec_effect h).params_eq

theorem step_params {s t : State} (h : step s = .next t) : t.params = s.params := by
  obtain ⟨bytes, ⟨i, hi, -⟩ | rfl | ⟨-, rfl | rfl⟩⟩ := step_cases h
  · simpa using exec_params hi
  all_goals rfl

/-! The fault register (R241, R248). -/

/-- An instruction leaves the fault register as it was, or takes the one fault it can cause (R248). -/
theorem Effect.fault_cases {i : Instr} {s t : State} (h : Effect i s t) :
    t.fault = s.fault ∨ (i = .qread ∧ s.q = [] ∧ t.fault = faultQueueEmpty) ∨
      (isEncode i = true ∧ t.fault = faultScratchOverflow) ∨
      (∃ p, i = .decode p ∧ 4 < p.length ∧ t.fault = faultBadLength) := by
  cases h with
  | popEmpty hi _ hq => exact .inr (.inl ⟨hi, hq, rfl⟩)
  | emit ps hi _ _ => exact (emitPackets_fault ps s).imp_right fun hf => .inr (.inl ⟨hi, hf⟩)
  | badLength p hi _ hp => exact .inr (.inr (.inr ⟨p, hi, hp, rfl⟩))
  | _ => left; simp

theorem Effect.fault_mem {i : Instr} {s t : State} (h : Effect i s t) (hs : s.fault ∈ faultCodes) :
    t.fault ∈ faultCodes := by
  obtain hf | ⟨-, -, hf⟩ | ⟨-, hf⟩ | ⟨p, -, -, hf⟩ := h.fault_cases <;> rw [hf]
  · exact hs
  all_goals decide

/-! The form of the storages (R20, R23, R224). -/

theorem respond_wf {s : State} (bs : List Byte) (h : Memory.wf s) : Memory.wf (s.respond bs) := h

theorem withRxActive_wf {s : State} (b : Bool) (h : Memory.wf s) : Memory.wf (s.withRxActive b) := h

theorem Effect.memory_wf {i : Instr} {s t : State} (h : Effect i s t) (hs : Memory.wf s) : Memory.wf t := by
  cases h with
  | push b _ _ => exact respond_wf _ (queuePush_wf b hs)
  | pop _ _ _ _ hq => exact respond_wf _ (queuePop_wf hq hs)
  | flush _ _ => exact flushQ_wf hs
  | arm _ _ => exact withRxActive_wf true (flushQ_wf hs)
  | copy bs _ _ _ => exact copyPayload_wf bs hs
  | emit ps _ _ _ => exact emitPackets_wf ps hs
  | release _ _ => exact releaseScr_wf hs
  | _ => exact hs

/-! The cable bits of the encoded packets (R93). -/

theorem cableBitsZero_nil : cableBitsZero [] := fun _ hk => absurd hk (Nat.not_lt_zero _)

/-- Packets whose byte 0 is below 16 have their cable bits 0. -/
theorem cableBitsZero_packetsBytes {ps : List Packet} (h : ∀ p ∈ ps, p.b0.toNat < 16) :
    cableBitsZero (packetsBytes ps) := by
  induction ps with
  | nil => exact cableBitsZero_nil
  | cons p ps ih =>
    obtain ⟨hp, hps⟩ := List.forall_mem_cons.1 h
    intro k hk
    cases k with
    | zero => exact hp
    | succ k => exact ih hps k (by simp at hk ⊢; omega)

/-- Bytes put behind whole packets start at a multiple of 4, so their packets keep their places. -/
theorem cableBitsZero_append {xs ys : List Byte} (hm : xs.length % 4 = 0) (hx : cableBitsZero xs)
    (hy : cableBitsZero ys) : cableBitsZero (xs ++ ys) := by
  intro k hk
  by_cases hl : 4 * k < xs.length
  · rw [byteAt, List.getD_append _ _ _ _ hl]
    exact hx k hl
  · have hj : 4 * k - xs.length = 4 * (k - xs.length / 4) := by omega
    rw [byteAt, List.getD_append_right _ _ _ _ (by omega), hj]
    exact hy _ (by simp at hk; omega)

theorem emitPackets_cable {ps : List Packet} {s : State} (hm : s.scr.length % 4 = 0) (hs : cableBitsZero s.scr)
    (hp : ∀ p ∈ ps, p.b0.toNat < 16) : cableBitsZero (emitPackets ps s).scr := by
  obtain ⟨k, hk⟩ := emitPackets_scr ps s
  rw [hk]
  exact cableBitsZero_append hm hs (cableBitsZero_packetsBytes fun p h => hp p (List.mem_of_mem_take h))

theorem Effect.cable {i : Instr} {s t : State} (h : Effect i s t) (hw : Memory.wf s) (hs : cableBitsZero s.scr) :
    cableBitsZero t.scr := by
  cases h with
  | emit ps _ _ hp => exact emitPackets_cable hw.2.2 hs hp
  | release _ _ => exact cableBitsZero_nil
  | copy bs _ _ _ => rwa [copyPayload_scr]
  | _ => exact hs

/-! The invariant. -/

theorem State.Inv.effect {i : Instr} {s t : State} (hs : s.Inv) (h : Effect i s t) : t.Inv where
  params := by rw [h.params_eq]; exact hs.params
  storages := h.memory_wf hs.storages
  code := h.fault_mem hs.code
  cable := h.cable hs.storages hs.cable

theorem State.Inv.withCmdPort {s : State} (hs : s.Inv) (bytes : List Byte) : (s.withCmdPort bytes).Inv :=
  ⟨hs.params, hs.storages, hs.code, hs.cable⟩

theorem State.Inv.raiseFault {s : State} (hs : s.Inv) {code : Byte} (hc : code ∈ faultCodes) :
    (s.raiseFault code).Inv :=
  ⟨hs.params, hs.storages, hc, hs.cable⟩

end Sys2Proof.Machine

namespace Sys2Proof.Proofs

open Sys2Proof.Machine

/-- Settles O57: a step moves the command port on and then runs an instruction, does nothing more, or takes one of the
port's two faults; each keeps the invariant. -/
theorem stepKeepsInv : Obligations.StepKeepsInv := by
  intro s t hs h
  obtain ⟨bytes, ⟨i, hi, -⟩ | rfl | ⟨-, rfl | rfl⟩⟩ := step_cases h
  · exact (hs.withCmdPort bytes).effect (exec_effect hi)
  · exact hs.withCmdPort bytes
  · exact (hs.withCmdPort bytes).raiseFault (by decide)
  · exact (hs.withCmdPort bytes).raiseFault (by decide)

/-- Settles O53: the cases of `Effect.fault_cases` but the unchanged register. -/
theorem oneFaultCausePerCommand : Obligations.OneFaultCausePerCommand := by
  intro i s t h0 h ht
  exact (exec_effect h).fault_cases.resolve_left fun he => ht (he.trans h0)

/-- Settles O60: the reset parameters lie in range, and every kind of effect and every move of the port keeps the
parameters. -/
theorem parametersStayInRange : Obligations.ParametersStayInRange :=
  ⟨configParams_wf, fun _ _ _ => exec_params, fun _ _ => step_params⟩

/-- Settles O58: both storages are empty at reset, so only the parameters' ranges are to be shown. -/
theorem resetHasInv : Obligations.ResetHasInv where
  params := configParams_wf
  storages := reset_wf
  code := by decide
  cable := cableBitsZero_nil

end Sys2Proof.Proofs
end

section
/-! PROOFS. The ring-buffer view of the queue refines the sequence `Q` (10_state.md R21): one commuting lemma and one
lemma on the ranges per operation. -/

namespace Sys2Proof.Machine

/-! The storage `Q_BUF`: reading a byte after writing one. -/

theorem byteAt_set_self {m : List Byte} {i : Nat} (b : Byte) (h : i < m.length) : byteAt (m.set i b) i = b := by
  simp [byteAt, h]

theorem byteAt_set_ne {m : List Byte} {i j : Nat} (b : Byte) (h : i ≠ j) :
    byteAt (m.set i b) j = byteAt m j := by
  simp [byteAt, h]

/-! The contents of the ring. -/

@[simp] theorem Ring.contents_length (cap : Nat) (r : Ring) : (r.contents cap).length = r.count := by
  simp [Ring.contents]

theorem Ring.wr_lt {cap : Nat} {r : Ring} (h : r.wf cap) : r.wr cap < cap :=
  Nat.mod_lt _ (Nat.zero_lt_of_lt h.2.1)

/-- A ring with room has its write index apart from every queued byte, however the indices have wrapped. -/
theorem Ring.wr_ne {cap : Nat} {r : Ring} {i : Nat} (hi : i < r.count) (hc : r.count < cap) :
    r.wr cap ≠ (r.rd + i) % cap := by
  intro h
  have hm : r.count ≡ i [MOD cap] := Nat.ModEq.add_left_cancel' r.rd h
  exact Nat.ne_of_gt hi (hm.eq_of_lt_of_lt hc (hi.trans hc))

/-- The oldest byte stands at `Q_RD`, and those behind it are the contents from the next index on. -/
theorem Ring.contents_cons {cap : Nat} {r : Ring} (h : r.wf cap) (h0 : r.count ≠ 0) :
    r.contents cap = byteAt r.buf r.rd ::
      Ring.contents cap { r with rd := (r.rd + 1) % cap, count := r.count - 1 } := by
  obtain ⟨n, hn⟩ := Nat.exists_eq_succ_of_ne_zero h0
  have hrd : r.rd % cap = r.rd := Nat.mod_eq_of_lt h.2.1
  simp [Ring.contents, hn, List.range_succ_eq_map, hrd, Nat.add_assoc, Nat.add_comm 1]

/-! Push (R121). -/

theorem Ring.push_full {cap : Nat} {r : Ring} (b : Byte) (h : r.count = cap) : r.push cap b = (r, .overflow) := by
  simp [Ring.push, h]

theorem Ring.push_room {cap : Nat} {r : Ring} (b : Byte) (h : r.count ≠ cap) :
    r.push cap b = ({ r with buf := r.buf.set (r.wr cap) b, count := r.count + 1 }, .ok) := by
  simp [Ring.push, h]

theorem Ring.push_wf {cap : Nat} {r : Ring} (b : Byte) (h : r.wf cap) : (r.push cap b).1.wf cap := by
  obtain ⟨hbuf, hrd, hcount⟩ := h
  by_cases hc : r.count = cap
  · rw [Ring.push_full b hc]; exact ⟨hbuf, hrd, hcount⟩
  · rw [Ring.push_room b hc]; exact ⟨by simp [hbuf], hrd, Nat.lt_of_le_of_ne hcount hc⟩

/-- Writing at `Q_WR` leaves the queued bytes and puts the new one behind them. -/
theorem Ring.contents_write {cap : Nat} {r : Ring} (b : Byte) (h : r.wf cap) (hc : r.count < cap) :
    Ring.contents cap { r with buf := r.buf.set (r.wr cap) b, count := r.count + 1 } = r.contents cap ++ [b] := by
  have hold : ∀ i ∈ List.range r.count,
      byteAt (r.buf.set (r.wr cap) b) ((r.rd + i) % cap) = byteAt r.buf ((r.rd + i) % cap) :=
    fun i hi => byteAt_set_ne b (Ring.wr_ne (List.mem_range.1 hi) hc)
  have hnew : byteAt (r.buf.set (r.wr cap) b) ((r.rd + r.count) % cap) = b :=
    byteAt_set_self b (h.1.symm ▸ Ring.wr_lt h)
  simp only [Ring.contents, List.range_succ, List.map_append, List.map_cons, List.map_nil, hnew,
    List.map_congr_left hold]

theorem Ring.push_refines {cap : Nat} {r : Ring} (b : Byte) (h : r.wf cap) :
    ((r.push cap b).1.contents cap, (r.push cap b).2) = queuePush cap b (r.contents cap) := by
  by_cases hc : r.count = cap
  · rw [Ring.push_full b hc, queuePush_full b (by simpa using hc)]
  · rw [Ring.push_room b hc, queuePush_room b (by simpa using hc),
      Ring.contents_write b h (Nat.lt_of_le_of_ne h.2.2 hc)]

/-! Pop (R122). -/

theorem Ring.pop_empty {cap : Nat} {r : Ring} (h : r.count = 0) : r.pop cap = none := by
  simp [Ring.pop, h]

theorem Ring.pop_nonempty {cap : Nat} {r : Ring} (h : r.count ≠ 0) :
    r.pop cap = some (byteAt r.buf r.rd, { r with rd := (r.rd + 1) % cap, count := r.count - 1 }) := by
  simp [Ring.pop, h]

theorem Ring.pop_wf {cap : Nat} {r : Ring} (h : r.wf cap) {x : Byte × Ring} (hx : r.pop cap = some x) :
    x.2.wf cap := by
  obtain ⟨hbuf, hrd, hcount⟩ := h
  by_cases h0 : r.count = 0
  · simp [Ring.pop_empty h0] at hx
  · rw [Ring.pop_nonempty h0] at hx
    cases hx
    exact ⟨hbuf, Nat.mod_lt _ (Nat.zero_lt_of_lt hrd), (Nat.sub_le _ _).trans hcount⟩

theorem Ring.pop_refines {cap : Nat} {r : Ring} (h : r.wf cap) :
    (r.pop cap).map (fun x => (x.1, x.2.contents cap)) = queuePop (r.contents cap) := by
  by_cases h0 : r.count = 0
  · simp [Ring.pop_empty h0, Ring.contents, h0, queuePop]
  · rw [Ring.pop_nonempty h0, Ring.contents_cons h h0]
    rfl

/-! Flush (R123). -/

theorem Ring.flush_wf {cap : Nat} {r : Ring} (h : r.wf cap) : r.flush.wf cap :=
  ⟨h.1, Nat.zero_lt_of_lt h.2.1, Nat.zero_le _⟩

end Sys2Proof.Machine

namespace Sys2Proof.Proofs

open Sys2Proof.Machine

/-- Settles O16: push writes at an index apart from every queued byte, pop drops the index of the oldest byte, and
flush leaves no index in use; each keeps the ranges. -/
theorem ringRefinesQueue : Obligations.RingRefinesQueue := fun _cap _r b h =>
  ⟨⟨Ring.push_wf b h, Ring.push_refines b h⟩, Ring.pop_refines h, fun _ => Ring.pop_wf h,
    Ring.flush_wf h, rfl, rfl, rfl⟩

end Sys2Proof.Proofs
end

section
/-! PROOFS. DECODE of a whole packet (41_decoder.md R140, R141), in its two spellings: the command over the packet's 4
bytes and the row of the packet's CIN. -/

namespace Sys2Proof.Machine

/-- What a whole packet of CIN `cin` with the bytes `m` behind its byte 0 does to a running block (R140, R143). -/
def packetEffect (cin : Byte) (m : List Byte) (s : State) : State :=
  if cin = 0x00#8 ∨ cin = 0x01#8 then s else enqueuePayload (m.take (payloadSize cin)) s

theorem decodePacket_whole (p0 m0 m1 m2 : Byte) :
    decodePacket [p0, m0, m1, m2] = packetEffect (cinOf p0) [m0, m1, m2] := by
  funext s
  by_cases ha : s.rxActive = false <;> simp [decodePacket, packetEffect, enqueuePayload, byteAt, ha]

theorem exec_decode_whole {p0 cin : Byte} (m0 m1 m2 : Byte) (s : State) (h : p0 &&& 0x0F#8 = cin) :
    exec (.decode [p0, m0, m1, m2]) s = command (packetEffect cin [m0, m1, m2]) s := by
  rw [← h, ← cinOf, ← decodePacket_whole]
  rfl

/-- The row of a packet does what DECODE of its 4 bytes does: each row's payload has the table's size for its
CIN (R25, R91, R140). -/
theorem exec_packetRow (p0 m0 m1 m2 : Byte) (s : State) :
    exec (packetRow p0 m0 m1 m2) s = exec (.decode [p0, m0, m1, m2]) s := by
  have cinRange : (p0 &&& 0x0F#8).toNat < 16 := by revert p0; decide
  have row {i : Instr} {cin : Byte} (hi : exec i s = command (packetEffect cin [m0, m1, m2]) s)
      (hc : p0 &&& 0x0F#8 = cin) : exec i s = exec (.decode [p0, m0, m1, m2]) s :=
    hi.trans (exec_decode_whole m0 m1 m2 s hc).symm
  simp only [packetRow, apply_ite (exec · s)]
  iterate 15 refine ite_eq_both (row rfl) (fun _ => ?_)
  -- The last row is taken where no other CIN matched; it is the row of 0xF because a CIN has 4 bits.
  refine row (cin := 0x0F#8) rfl ?_
  generalize p0 &&& 0x0F#8 = cin at *
  bv_omega

/-- A payload is 1, 2 or 3 bytes (R25). -/
theorem payloadSize_le (cin : Byte) : payloadSize cin ≤ 3 := by
  revert cin; decide

end Sys2Proof.Machine

namespace Sys2Proof.Proofs

open Sys2Proof.Machine

/-- Settles O20: the row is the command, and on an armed block the command is the copy of the payload. -/
theorem decodeAppendsOrFailStops : Obligations.DecodeAppendsOrFailStops := by
  intro s p0 m0 m1 m2 h0 ha hq hcin size payload
  refine ⟨exec_packetRow p0 m0 m1 m2 s, ?_⟩
  have hlen : payload.length = size := by
    have : size ≤ 3 := payloadSize_le (p0 &&& 0x0F#8)
    simp [payload, this]
  have hres : ¬(p0 &&& 0x0F#8 = 0x00#8 ∨ p0 &&& 0x0F#8 = 0x01#8) := by
    rintro (h | h) <;> rw [h] at hcin <;> exact absurd hcin (by decide)
  have hcopy : packetEffect (p0 &&& 0x0F#8) [m0, m1, m2] s = copyPayload payload s := by
    rw [packetEffect, if_neg hres, enqueuePayload, if_neg (by simp [ha])]
    rfl
  rw [exec_decode_whole m0 m1 m2 s rfl, command_running h0, hcopy, copyPayload_spec payload s hq, hlen]
  exact apply_ite _ _ _ _

end Sys2Proof.Proofs
end

section
/-! PROOFS. Who writes which element of the state (10_state.md R31), read off `Effect`. -/

namespace Sys2Proof.Machine

@[simp] theorem copyPayload_cmdPort (bs : List Byte) (s : State) : (copyPayload bs s).cmdPort = s.cmdPort := by
  obtain h | ⟨h, -⟩ := copyPayload_cases bs s <;> simp [h]

@[simp] theorem emitPackets_cmdPort (ps : List Packet) (s : State) : (emitPackets ps s).cmdPort = s.cmdPort := by
  obtain ⟨k, h | h, -⟩ := emitPackets_cases ps s <;> simp [h]

@[simp] theorem emitPackets_q (ps : List Packet) (s : State) : (emitPackets ps s).q = s.q := by
  obtain ⟨k, h | h, -⟩ := emitPackets_cases ps s <;> simp [h]

@[simp] theorem emitPackets_rxActive (ps : List Packet) (s : State) : (emitPackets ps s).rxActive = s.rxActive := by
  obtain ⟨k, h | h, -⟩ := emitPackets_cases ps s <;> simp [h]

/-- The copy leaves the armed flag, or clears it over a full queue where the bytes did not fit (R141). -/
theorem copyPayload_rxActive (bs : List Byte) (s : State) :
    (copyPayload bs s).rxActive = s.rxActive ∨
      ((copyPayload bs s).rxActive = false ∧ (copyPayload bs s).q.length = s.params.rxqCapacity ∧
        s.params.rxqCapacity < s.q.length + bs.length) := by
  obtain h | ⟨h, hfull, hfit⟩ := copyPayload_cases bs s <;> rw [h]
  · exact .inl rfl
  · exact .inr ⟨rfl, hfull, hfit⟩

/-- The packet behind a copied payload: of a CIN that is not reserved, and no longer than the table
says (R25). -/
theorem CopiesPayload.exists_packet {i : Instr} {bs : List Byte} (h : CopiesPayload i bs) :
    ∃ p0 m0 m1 m2 : Byte, (i = .decode [p0, m0, m1, m2] ∨ i = packetRow p0 m0 m1 m2) ∧
      2 ≤ (p0 &&& 0x0F#8).toNat ∧ bs.length ≤ payloadSize (cinOf p0) := by
  obtain ⟨p0, m0, m1, m2, hi, hcin, rfl⟩ := h
  exact ⟨p0, m0, m1, m2, hi, hcin, List.length_take_le _ _⟩

/-- An instruction leaves the armed flag, sets it as RX_ARM, or clears it in the overflow of a payload (R22, R141). -/
theorem Effect.rxActive_cases {i : Instr} {s t : State} (h : Effect i s t) :
    t.rxActive = s.rxActive ∨ (i = .rxArm ∧ t.rxActive = true) ∨
      (∃ bs, CopiesPayload i bs ∧ s.params.rxqCapacity < s.q.length + bs.length ∧
        t.rxActive = false ∧ t.q.length = s.params.rxqCapacity) := by
  cases h with
  | arm hi _ => exact .inr (.inl ⟨hi, rfl⟩)
  | copy bs hi _ _ =>
    exact (copyPayload_rxActive bs s).imp_right fun ⟨hoff, hfull, hfit⟩ => .inr ⟨bs, hi, hfit, hoff, hfull⟩
  | _ => left; simp

/-- An instruction leaves the queue, or is one of its writers (R20). -/
theorem Effect.q_eq_or {i : Instr} {s t : State} (h : Effect i s t) : t.q = s.q ∨ writesQueue i = true := by
  cases h with
  | push b hi _ | pop _ _ hi _ _ | arm hi _ => exact .inr (hi ▸ rfl)
  | flush hi _ => right; rcases hi with rfl | rfl <;> rfl
  | copy bs hi _ _ => exact .inr hi.writesQueue
  | _ => left; simp

/-- An instruction leaves the scratch buffer, or is an encode command or TX_RELEASE (R23, R31). -/
theorem Effect.scr_eq_or {i : Instr} {s t : State} (h : Effect i s t) :
    t.scr = s.scr ∨ isEncode i = true ∨ i = .txRelease := by
  cases h with
  | emit ps hi _ _ => exact .inr (.inl hi)
  | release hi _ => exact .inr (.inr hi)
  | _ => left; simp

/-- No instruction takes bytes from the command port. -/
theorem Effect.cmdPort_eq {i : Instr} {s t : State} (h : Effect i s t) : t.cmdPort = s.cmdPort := by
  cases h <;> simp

end Sys2Proof.Machine

namespace Sys2Proof.Proofs

open Sys2Proof.Machine

/-- Settles O28: the cases of `Effect.rxActive_cases` but the unchanged flag. -/
theorem onlyArmAndFailStopWriteRxActive : Obligations.OnlyArmAndFailStopWriteRxActive := by
  intro i s t h hne
  obtain hsame | harm | ⟨bs, hi, hfit, hoff, hfull⟩ := (exec_effect h).rxActive_cases
  · exact absurd hsame hne
  · exact .inl harm
  · obtain ⟨p0, m0, m1, m2, hi, hcin, hbs⟩ := hi.exists_packet
    exact .inr ⟨p0, m0, m1, m2, hi, hcin, by omega, hoff, hfull⟩

/-- Settles O55: what an effect leaves unchanged, field by field. -/
theorem onlyWritersWriteStorages : Obligations.OnlyWritersWriteStorages := fun _ _ _ h =>
  ⟨(exec_effect h).q_eq_or.resolve_left, (exec_effect h).scr_eq_or.resolve_left, (exec_effect h).cmdPort_eq⟩

end Sys2Proof.Proofs
end

section
/-! PROOFS. The command port and the reads: bytes that arrive later keep what is already read (30_encoding.md R61,
R89), a step runs the complete command at the front (R81), and a read answers the same twice (20_memory.md R58). -/

namespace Sys2Proof

/-! What is read of the port, when more bytes arrive. -/

/-- What is read of the port, with the bytes `more` arriving behind those it has not consumed. -/
def Decoded.append (d : Decoded) (more : List Byte) : Decoded :=
  match d with
  | .instr i rest => .instr i (rest ++ more)
  | .hold => .hold
  | .illegalOpcode rest => .illegalOpcode (rest ++ more)
  | .badLength rest => .badLength (rest ++ more)

/-- A reader of port bytes keeps what it has read when more bytes arrive; only where it still held may they change
its answer (R61, R89). -/
def KeepsRead (f : List Byte → Decoded) : Prop :=
  ∀ t more, f t ≠ .hold → f (t ++ more) = (f t).append more

theorem KeepsRead.ite {c : Prop} [Decidable c] {f g : List Byte → Decoded} (hf : KeepsRead f) (hg : KeepsRead g) :
    KeepsRead fun t => if c then f t else g t := by
  by_cases h : c
  · simpa only [if_pos h] using hf
  · simpa only [if_neg h] using hg

theorem formatN_keepsRead (i : Instr) : KeepsRead (formatN i) := fun _ _ _ => rfl

theorem formatB_keepsRead (f : Byte → Instr) : KeepsRead (formatB f)
  | [], _, h => absurd rfl h
  | _ :: _, _, _ => rfl

/-- A field of `n` bytes that has arrived is the same bytes, with the later ones behind it (R82, R85). -/
theorem field_keepsRead (f : List Byte → Instr) (n : Nat) :
    KeepsRead fun rest => if rest.length < n then .hold else .instr (f (rest.take n)) (rest.drop n) := by
  intro rest more h
  by_cases hn : rest.length < n
  · exact absurd (if_pos hn) h
  · have hle : n ≤ rest.length := Nat.le_of_not_lt hn
    have hle' : ¬(rest ++ more).length < n := by simp; omega
    simp only [if_neg hn, if_neg hle', List.take_append_of_le_length hle, List.drop_append_of_le_length hle,
      Decoded.append]

theorem formatP_keepsRead (f : List Byte → Instr) : KeepsRead (formatP f)
  | [], _, h => absurd rfl h
  | len :: rest, more, h =>
    KeepsRead.ite (c := 4 < len.toNat) (f := .badLength) (fun _ _ _ => rfl) (field_keepsRead f len.toNat) rest more h

theorem formatL_keepsRead (f : List Byte → Instr) : KeepsRead (formatL f)
  | [], _, h => absurd rfl h
  | [_], _, h => absurd rfl h
  | hi :: lo :: rest, more, h => field_keepsRead f (hi.toNat * 256 + lo.toNat) rest more h

/-- Each assigned opcode reads its format, and an unassigned one needs no byte behind it (R84, R88). -/
theorem decodeOp_keepsRead (op : Byte) : KeepsRead (decodeOp op) :=
  .ite (formatB_keepsRead _) <| .ite (formatN_keepsRead _) <| .ite (formatN_keepsRead _) <|
  .ite (formatN_keepsRead _) <| .ite (formatN_keepsRead _) <| .ite (formatP_keepsRead _) <|
  .ite (formatN_keepsRead _) <| .ite (formatN_keepsRead _) <| .ite (formatN_keepsRead _) <|
  .ite (formatL_keepsRead _) <| .ite (formatL_keepsRead _) <| .ite (formatN_keepsRead _) <|
  .ite (formatN_keepsRead _) <| .ite (formatN_keepsRead _) fun _ _ _ => rfl

theorem decodePort_keepsRead : KeepsRead decodePort
  | [], _, h => absurd rfl h
  | op :: t, more, h => decodeOp_keepsRead op t more h

end Sys2Proof

namespace Sys2Proof.Machine

/-! A step on a complete command. -/

theorem step_instr {s : State} {i : Instr} {rest : List Byte} (h0 : s.fault = 0x00#8)
    (hd : decodePort s.cmdPort = .instr i rest) : step s = exec i (s.withCmdPort rest) := by
  have hf : fetch s = .run i (s.withCmdPort rest) := by rw [fetch_running h0, fetchRunning, hd]
  rw [step, hf]

/-! Reads: commands that respond and change nothing else. -/

@[simp] theorem State.respond_nil (s : State) : s.respond [] = s := by
  simp [State.respond]

/-- A command that only responds gives the same response whatever responses stand before it, if its response does not
depend on them; a faulted block gives none. -/
theorem command_respond_repeats {g : State → List Byte} (hg : ∀ s x, g (s.respond x) = g s) (s : State) :
    ∃ r, ∀ x, command (fun s => s.respond (g s)) (s.respond x) = .next ((s.respond x).respond r) := by
  by_cases h : s.fault = 0x00#8
  · exact ⟨g s, fun x => by rw [command_running (by simpa using h), hg]⟩
  · exact ⟨[], fun x => by rw [command_faulted (by simpa using h), State.respond_nil]⟩

/-- The reads read no response byte, so each gives one response, whatever responses stand before it (R58). -/
theorem exec_read_repeats {i : Instr} (hi : i ∈ [Instr.txTake, .qreadable, .qisempty, .rxActive, .status])
    (s : State) : ∃ r, ∀ x, exec i (s.respond x) = .next ((s.respond x).respond r) := by
  simp only [List.mem_cons, List.not_mem_nil, or_false] at hi
  obtain rfl | rfl | rfl | rfl | rfl := hi
  · exact command_respond_repeats (g := fun s => highByte s.txPtr :: lowByte s.txPtr :: s.scr) (fun _ _ => rfl) s
  · exact command_respond_repeats (g := fun s => [highByte s.qCount, lowByte s.qCount]) (fun _ _ => rfl) s
  · exact command_respond_repeats (g := fun s => [flagResponse s.q.isEmpty]) (fun _ _ => rfl) s
  · exact command_respond_repeats (g := fun s => [flagResponse s.rxActive]) (fun _ _ => rfl) s
  · exact ⟨[s.fault], fun _ => rfl⟩

end Sys2Proof.Machine

namespace Sys2Proof.Proofs

open Sys2Proof.Machine

/-- Settles O5: the three clauses are the three answers but `hold`, each kept as `decodePort_keepsRead` says. -/
theorem laterBytesKeepDecoding : Obligations.LaterBytesKeepDecoding := by
  intro bytes more rest
  have kept {d : Decoded} (h : decodePort bytes = d) (hd : d ≠ .hold) :
      decodePort (bytes ++ more) = d.append more := by
    subst h
    exact decodePort_keepsRead bytes more hd
  exact ⟨fun i h => kept h nofun, fun h => kept h nofun, fun h => kept h nofun⟩

/-- Settles O1: the port of a running block hands its complete command on. -/
theorem stepRunsDecoded : Obligations.StepRunsDecoded := fun _ _ _ h0 _ hd => step_instr h0 hd

/-- Settles O54: a read's one response, first behind the responses already there and then behind itself. -/
theorem readsAreIdempotent : Obligations.ReadsAreIdempotent := by
  intro s i hi
  obtain ⟨r, hr⟩ := exec_read_repeats hi s
  have first : exec i s = .next (s.respond r) := by simpa using hr []
  refine ⟨r, first, ?_⟩
  simp only [execAll, first, hr r]
  rfl

end Sys2Proof.Proofs
end

section
/-! PROOFS. The command port's decoder and encoder are inverse to each other (30_encoding.md R82, R89): every row is read
back from its own bytes, and what is read stands on the port as its own bytes. With this, what a step makes of a
complete, an incomplete, an unassigned and an over-long command (R81, R86, R88). -/

namespace Sys2Proof

/-! A row's operand field is read as that row (R90, R91, R94). -/

/-- A packet row is the row of its own 4 bytes: the converse of `packetBytes_packetRow`. -/
theorem decodeRow_packetBytes {i : Instr} (h : packetBytes i ≠ []) : decodeRow (packetBytes i) = i := by
  cases i with
  | usbmidiCin0 | usbmidiCin1 | usbmidiCin2 | usbmidiCin3 | usbmidiCin4 | usbmidiCin5 | usbmidiCin6 | usbmidiCin7
  | usbmidiCin8 | usbmidiCin9 | usbmidiCinA | usbmidiCinB | usbmidiCinC | usbmidiCinD | usbmidiCinE | usbmidiCinF =>
    simp [packetBytes, decodeRow, packetRow, packetHead_cin, packetHead_cable]
  | _ => exact absurd rfl h

/-- A status row is the row of its own span: the converse of `spanBytes_classRow`. -/
theorem spanRow_spanBytes {i : Instr} (h : spanBytes i ≠ []) : spanRow (spanBytes i) = i := by
  cases i with
  | midiCv3_8n | midiCv3_9n | midiCv3_An | midiCv3_Bn | midiCv2_Cn | midiCv2_Dn | midiCv3_En =>
    simp [spanBytes, spanRow, classRow, statusHead_bit7, statusHead_kind, statusHead_channel, packetHead]
  | midiLeadingData => simp [spanBytes, spanRow, classRow, dataHead_bit7, dataHead_field]
  | midiSysex | midiSc2_F1 | midiSc3_F2 | midiSc2_F3 => rfl
  | midi1b_F4_F7 lo rest => exact classRow_oneByte lo rest
  | midiRt_F8_FF lo rest => exact classRow_realTime lo rest
  | _ => exact absurd rfl h

/-- Fewer than 4 packet bytes are read as the DECODE row (R142). -/
theorem decodeRow_short {p : List Byte} (h : p.length < 4) : decodeRow p = .decode p := by
  unfold decodeRow
  split
  · simp at h
  · rfl

theorem packetBytes_length_le (i : Instr) : (packetBytes i).length ≤ 4 := by
  cases i <;> simp [packetBytes]

/-! A whole command of format P or L at the front of the port (R82). -/

theorem decodePort_bytesP_decode (p rest : List Byte) (h : p.length ≤ 4) :
    decodePort (bytesP 0x10#8 p ++ rest) = .instr (decodeRow p) rest :=
  formatP_whole decodeRow p rest h

theorem decodePort_bytesL_encode (m rest : List Byte) (h : m.length ≤ 65535) :
    decodePort (bytesL 0x30#8 m ++ rest) = .instr (.encode m) rest :=
  formatL_whole .encode m rest h

theorem decodePort_bytesL_encodeSingle (m rest : List Byte) (h : m.length ≤ 65535) :
    decodePort (bytesL 0x31#8 m ++ rest) = .instr (spanRow m) rest :=
  formatL_whole spanRow m rest h

theorem decodePort_encodeInstr_packet {i : Instr} (h : packetBytes i ≠ []) (rest : List Byte) :
    decodePort (encodeInstr i ++ rest) = .instr i rest := by
  rw [encodeInstr_packet h, decodePort_bytesP_decode _ rest (packetBytes_length_le i), decodeRow_packetBytes h]

theorem decodePort_encodeInstr_span {i : Instr} (h : spanBytes i ≠ []) (hw : i.WellFormed) (rest : List Byte) :
    decodePort (encodeInstr i ++ rest) = .instr i rest := by
  rw [encodeInstr_span h, decodePort_bytesL_encodeSingle _ rest ((wellFormed_span h).1 hw), spanRow_spanBytes h]

/-- The bytes of a well-formed instruction are read as that instruction, whatever stands behind them (R82, R87). -/
theorem decodePort_encodeInstr {i : Instr} (rest : List Byte) (h : i.WellFormed) :
    decodePort (encodeInstr i ++ rest) = .instr i rest := by
  cases i with
  | qwrite | qread | qflush | qreadable | qisempty | rxArm | rxFlush | rxActive | txTake | txRelease | status => rfl
  | decode p =>
    have hp := decodePort_bytesP_decode p rest (Nat.le_of_lt h)
    rwa [decodeRow_short h] at hp
  | encode m => exact decodePort_bytesL_encode m rest h
  | encodeSingle m =>
    subst h
    exact decodePort_bytesL_encodeSingle [] rest (Nat.zero_le _)
  | usbmidiCin0 | usbmidiCin1 | usbmidiCin2 | usbmidiCin3 | usbmidiCin4 | usbmidiCin5 | usbmidiCin6 | usbmidiCin7
  | usbmidiCin8 | usbmidiCin9 | usbmidiCinA | usbmidiCinB | usbmidiCinC | usbmidiCinD | usbmidiCinE | usbmidiCinF =>
    exact decodePort_encodeInstr_packet (by simp [packetBytes]) rest
  | midiCv3_8n | midiCv3_9n | midiCv3_An | midiCv3_Bn | midiCv2_Cn | midiCv2_Dn | midiCv3_En | midiLeadingData
  | midiSysex | midiSc2_F1 | midiSc3_F2 | midiSc2_F3 | midi1b_F4_F7 | midiRt_F8_FF =>
    exact decodePort_encodeInstr_span (by simp [spanBytes]) h rest

/-! What is read stands on the port as its own bytes (R87, R96). -/

/-- A reader of the bytes behind the opcode `op` reads well-formed instructions only, each from its own encoding. -/
def ReadsEncoding (op : Byte) (f : List Byte → Decoded) : Prop :=
  ∀ t i rest, f t = .instr i rest → i.WellFormed ∧ encodeInstr i ++ rest = op :: t

theorem ReadsEncoding.ite {op c : Byte} {f g : List Byte → Decoded} (hf : ReadsEncoding c f)
    (hg : ReadsEncoding op g) : ReadsEncoding op fun t => if op = c then f t else g t := by
  by_cases h : op = c
  · subst h
    simpa only [if_true] using hf
  · simpa only [if_neg h] using hg

theorem formatN_readsEncoding {op : Byte} {i : Instr} (hw : i.WellFormed) (he : encodeInstr i = [op]) :
    ReadsEncoding op (formatN i) := by
  rintro t _ _ ⟨⟩
  exact ⟨hw, by rw [he]; rfl⟩

theorem formatB_readsEncoding {op : Byte} {f : Byte → Instr}
    (hf : ∀ b, (f b).WellFormed ∧ encodeInstr (f b) = [op, b]) : ReadsEncoding op (formatB f)
  | b :: _, _, _, rfl => ⟨(hf b).1, by rw [(hf b).2]; rfl⟩

theorem formatP_readsEncoding {op : Byte} {f : List Byte → Instr}
    (hf : ∀ p, p.length ≤ 4 → (f p).WellFormed ∧ encodeInstr (f p) = bytesP op p) :
    ReadsEncoding op (formatP f) := by
  intro t i rest h
  obtain ⟨p, hp, rfl, rfl⟩ := formatP_instr h
  exact ⟨(hf p hp).1, by rw [(hf p hp).2]; rfl⟩

theorem formatL_readsEncoding {op : Byte} {f : List Byte → Instr}
    (hf : ∀ m, m.length ≤ 65535 → (f m).WellFormed ∧ encodeInstr (f m) = bytesL op m) :
    ReadsEncoding op (formatL f) := by
  intro t i rest h
  obtain ⟨m, hm, rfl, rfl⟩ := formatL_instr h
  exact ⟨(hf m hm).1, by rw [(hf m hm).2]; rfl⟩

/-- The row a packet field is read as is encoded as that field, a whole packet or a shorter one. -/
theorem encodeInstr_decodeRow (p : List Byte) (h : p.length ≤ 4) :
    (decodeRow p).WellFormed ∧ encodeInstr (decodeRow p) = bytesP 0x10#8 p := by
  unfold decodeRow
  split
  next p0 m0 m1 m2 =>
    have hb := packetBytes_packetRow p0 m0 m1 m2
    have hne : packetBytes (packetRow p0 m0 m1 m2) ≠ [] := by simp [hb]
    exact ⟨wellFormed_packet hne, by rw [encodeInstr_packet hne, hb]⟩
  next hnot =>
    refine ⟨Nat.lt_of_le_of_ne h fun h4 => ?_, rfl⟩
    obtain ⟨p0, m0, m1, m2, rfl⟩ := List.length_eq_four.1 h4
    exact hnot _ _ _ _ rfl

/-- The row a span is read as is encoded as that span. -/
theorem encodeInstr_spanRow (m : List Byte) (h : m.length ≤ 65535) :
    (spanRow m).WellFormed ∧ encodeInstr (spanRow m) = bytesL 0x31#8 m := by
  cases m with
  | nil => exact ⟨rfl, rfl⟩
  | cons b rest =>
    have hb := spanBytes_classRow b rest
    have hne : spanBytes (classRow b rest) ≠ [] := by simp [hb]
    exact ⟨(wellFormed_span hne).2 (by rwa [hb]), by rw [spanRow, encodeInstr_span hne, hb]⟩

/-- Each assigned opcode reads its own commands, and an unassigned one reads none (R84, R88). -/
theorem decodeOp_readsEncoding (op : Byte) : ReadsEncoding op (decodeOp op) :=
  .ite (formatB_readsEncoding fun _ => ⟨trivial, rfl⟩) <| .ite (formatN_readsEncoding trivial rfl) <|
  .ite (formatN_readsEncoding trivial rfl) <| .ite (formatN_readsEncoding trivial rfl) <|
  .ite (formatN_readsEncoding trivial rfl) <| .ite (formatP_readsEncoding encodeInstr_decodeRow) <|
  .ite (formatN_readsEncoding trivial rfl) <| .ite (formatN_readsEncoding trivial rfl) <|
  .ite (formatN_readsEncoding trivial rfl) <| .ite (formatL_readsEncoding fun _ h => ⟨h, rfl⟩) <|
  .ite (formatL_readsEncoding encodeInstr_spanRow) <| .ite (formatN_readsEncoding trivial rfl) <|
  .ite (formatN_readsEncoding trivial rfl) <| .ite (formatN_readsEncoding trivial rfl) nofun

/-! The front of a command's bytes reads as nothing yet (R81). -/

theorem Decoded.append_eq_instr_nil {d : Decoded} {more : List Byte} {i : Instr} (h : d.append more = .instr i []) :
    more = [] := by
  cases d with
  | instr j rest =>
    cases h' : rest ++ more with
    | nil => exact (List.append_eq_nil_iff.1 h').2
    | cons => simp [Decoded.append, h'] at h
  | _ => cases h

/-- A command with bytes missing holds: had its front already been read, so would the command be with bytes to
spare. -/
theorem decodePort_incomplete {i : Instr} (hi : i.WellFormed) {bytes missing : List Byte} (hm : missing ≠ [])
    (he : encodeInstr i = bytes ++ missing) : decodePort bytes = .hold := by
  by_contra hread
  have whole : decodePort (bytes ++ missing) = .instr i [] := by
    rw [← he]
    simpa using decodePort_encodeInstr [] hi
  rw [decodePort_keepsRead bytes missing hread] at whole
  exact hm (Decoded.append_eq_instr_nil whole)

/-! The unassigned opcodes (R88). -/

theorem formatB_ne_illegalOpcode (f : Byte → Instr) (t r : List Byte) : formatB f t ≠ .illegalOpcode r := by
  cases t <;> nofun

theorem formatP_ne_illegalOpcode (f : List Byte → Instr) (t r : List Byte) : formatP f t ≠ .illegalOpcode r := by
  unfold formatP
  repeat' split
  all_goals nofun

theorem formatL_ne_illegalOpcode (f : List Byte → Instr) (t r : List Byte) : formatL f t ≠ .illegalOpcode r := by
  unfold formatL
  repeat' split
  all_goals nofun

theorem decodeOp_unassigned {op : Byte} (h : op ∉ assignedOpcodes) (t : List Byte) :
    decodeOp op t = .illegalOpcode t := by
  simp only [assignedOpcodes, List.mem_cons, List.not_mem_nil, or_false, not_or] at h
  simp only [decodeOp, h, if_false]

theorem decodeOp_assigned {op : Byte} (h : op ∈ assignedOpcodes) (t r : List Byte) :
    decodeOp op t ≠ .illegalOpcode r := by
  simp only [assignedOpcodes, List.mem_cons, List.not_mem_nil, or_false] at h
  rcases h with rfl | rfl | rfl | rfl | rfl | rfl | rfl | rfl | rfl | rfl | rfl | rfl | rfl | rfl
  exacts [formatB_ne_illegalOpcode _ t r, nofun, nofun, nofun, nofun, formatP_ne_illegalOpcode _ t r, nofun, nofun,
    nofun, formatL_ne_illegalOpcode _ t r, formatL_ne_illegalOpcode _ t r, nofun, nofun, nofun]

/-- The opcodes that R88 lists as unassigned are those that R84 does not assign. -/
theorem not_mem_assignedOpcodes_iff (op : Byte) :
    op ∉ assignedOpcodes ↔
      op.toNat = 0x00 ∨ (0x06 ≤ op.toNat ∧ op.toNat ≤ 0x0F) ∨ (0x11 ≤ op.toNat ∧ op.toNat ≤ 0x1F) ∨
        (0x23 ≤ op.toNat ∧ op.toNat ≤ 0x2F) ∨ (0x34 ≤ op.toNat ∧ op.toNat ≤ 0x7E) ∨ 0x80 ≤ op.toNat := by
  revert op; decide

end Sys2Proof

namespace Sys2Proof.Machine

/-! A step on a port with no complete command. -/

theorem step_settle {s t : State} (h0 : s.fault = 0x00#8) (hf : fetchRunning s = .settle t) : step s = .next t := by
  rw [step, fetch_running h0, hf]

theorem step_hold {s : State} (h0 : s.fault = 0x00#8) (hd : decodePort s.cmdPort = .hold) : step s = .next s :=
  step_settle h0 (by rw [fetchRunning, hd])

theorem step_illegalOpcode {s : State} {rest : List Byte} (h0 : s.fault = 0x00#8)
    (hd : decodePort s.cmdPort = .illegalOpcode rest) :
    step s = .next ((s.withCmdPort rest).raiseFault faultIllegalOpcode) :=
  step_settle h0 (by rw [fetchRunning, hd])

theorem step_badLength {s : State} {rest : List Byte} (h0 : s.fault = 0x00#8)
    (hd : decodePort s.cmdPort = .badLength rest) :
    step s = .next ((s.withCmdPort rest).raiseFault faultBadLength) :=
  step_settle h0 (by rw [fetchRunning, hd])

/-- ILLEGAL_OPCODE is the fault of no instruction (R248). -/
theorem Effect.fault_ne_illegalOpcode {i : Instr} {s t : State} (h : Effect i s t) (h0 : s.fault = 0x00#8) :
    t.fault ≠ faultIllegalOpcode := by
  obtain hf | ⟨-, -, hf⟩ | ⟨-, hf⟩ | ⟨p, -, -, hf⟩ := h.fault_cases <;> rw [hf]
  · rw [h0]; decide
  all_goals decide

/-- A step of a running block takes ILLEGAL_OPCODE only where the port reads an unassigned opcode (R88). -/
theorem step_fault_ne_illegalOpcode {s t : State} (h0 : s.fault = 0x00#8)
    (hd : ∀ r, decodePort s.cmdPort ≠ .illegalOpcode r) (h : step s = .next t) : t.fault ≠ faultIllegalOpcode := by
  cases hp : decodePort s.cmdPort with
  | instr i rest =>
    rw [step_instr h0 hp] at h
    exact (exec_effect h).fault_ne_illegalOpcode h0
  | hold =>
    rw [step_hold h0 hp] at h
    cases h
    rw [h0]; decide
  | illegalOpcode rest => exact absurd hp (hd rest)
  | badLength rest =>
    rw [step_badLength h0 hp] at h
    cases h
    exact (by decide : faultBadLength ≠ faultIllegalOpcode)

end Sys2Proof.Machine

namespace Sys2Proof.Proofs

open Sys2Proof.Machine

/-- Settles O3: a packet row is read from its packet, a status row from its span, a command by its opcode. -/
theorem decodeOfEncode : Obligations.DecodeOfEncode := fun _ rest h => decodePort_encodeInstr rest h

/-- Settles O4: the reader of each opcode reads encodings of that opcode. -/
theorem encodeOfDecode : Obligations.EncodeOfDecode
  | op :: t, i, rest, h => decodeOp_readsEncoding op t i rest h

/-- Settles O2: the whole encoding decodes to the instruction with nothing behind it, and a part of it holds. -/
theorem incompleteCommandHolds : Obligations.IncompleteCommandHolds := by
  intro s i h0 hi
  refine ⟨fun hc => step_instr h0 ?_, fun missing hm he => step_hold h0 (decodePort_incomplete hi hm he), rfl⟩
  rw [hc]
  simpa using decodePort_encodeInstr [] hi

/-- Settles O8: the ranges are the opcodes that are not assigned; those the port refuses, and only those. -/
theorem unassignedOpcodeFaults : Obligations.UnassignedOpcodeFaults := by
  intro s op rest h0 hc
  have hport : decodePort s.cmdPort = decodeOp op rest := by rw [hc]; rfl
  split
  next hop =>
    have hnot : op ∉ assignedOpcodes := (not_mem_assignedOpcodes_iff op).2 hop
    exact step_illegalOpcode h0 (hport.trans (decodeOp_unassigned hnot rest))
  next hop =>
    have hmem : op ∈ assignedOpcodes := not_imp_comm.1 (not_mem_assignedOpcodes_iff op).1 hop
    exact fun t ht => step_fault_ne_illegalOpcode h0 (fun r => hport ▸ decodeOp_assigned hmem rest r) ht

/-- Settles O7: the port refuses a length above 4 when the length byte is read. -/
theorem overlongDecodeFaults : Obligations.OverlongDecodeFaults := by
  intro s len rest h0 hlen hc
  have hd : decodePort s.cmdPort = .badLength rest := by
    rw [hc]
    exact if_pos hlen
  exact step_badLength h0 hd

/-- Settles O6: each word is the encoding of the row it is to be read as. -/
theorem specWordsDecode : Obligations.SpecWordsDecode :=
  ⟨decodePort_encodeInstr (i := .qwrite 0x7F#8) [] trivial,
    decodePort_encodeInstr (i := .usbmidiCin9 0x0#4 0x90#8 0x3C#8 0x7F#8) [] trivial,
    decodePort_encodeInstr (i := .decode [0x09#8]) [] (by decide),
    decodePort_encodeInstr (i := .rxArm) [] trivial,
    decodePort_encodeInstr (i := .encode [0x90#8, 0x3C#8, 0x7F#8]) [] (by decide),
    decodePort_encodeInstr (i := .midiCv2_Cn 0x0#4 [0x05#8]) [] (by decide),
    decodePort_encodeInstr (i := .txTake) [0x33#8] trivial,
    decodePort_encodeInstr (i := .status) [] trivial⟩

end Sys2Proof.Proofs
end

section
/-! PROOFS. The meanings of the rows (30_encoding.md R84, R91, R94): a status row is ENCODE_SINGLE of its span, a
channel-voice row emits its one packet or none, a packet row enqueues its payload, TX hands over what it encodes, and
every instruction answers a next state with its number of response bytes. -/

namespace Sys2Proof.Machine

/-! The single-message encoder by the class of the span's head (R182). -/

theorem spanPackets_cv2 {b : Byte} (rest : List Byte) (h : b &&& 0xF0#8 = 0xC0#8 ∨ b &&& 0xF0#8 = 0xD0#8) :
    spanPackets (b :: rest) = cv2Packets b rest := by
  have hsys : b &&& 0xF0#8 ≠ 0xF0#8 := by rcases h with h | h <;> rw [h] <;> decide
  rw [spanPackets, if_pos hsys, if_pos h]

/-- A head that is neither a system status nor of the 2-byte channel-voice kinds, a leading data byte included, goes the
channel-voice 3-byte way (R183, R192). -/
theorem spanPackets_cv3 {b : Byte} (rest : List Byte) (hsys : b &&& 0xF0#8 ≠ 0xF0#8)
    (h2 : ¬(b &&& 0xF0#8 = 0xC0#8 ∨ b &&& 0xF0#8 = 0xD0#8)) : spanPackets (b :: rest) = cv3Packets b rest := by
  rw [spanPackets, if_pos hsys, if_neg h2]

theorem spanPackets_statusHead_cv2 {kind : Nibble} (hk : kind = 0xC#4 ∨ kind = 0xD#4) (ch : Nibble)
    (rest : List Byte) : spanPackets (statusHead kind ch :: rest) = cv2Packets (statusHead kind ch) rest := by
  refine spanPackets_cv2 rest ?_
  rw [statusHead_kind]
  revert kind; decide

theorem spanPackets_statusHead_cv3 {kind : Nibble} (hk : kind ≠ 0xC#4 ∧ kind ≠ 0xD#4 ∧ kind ≠ 0xF#4) (ch : Nibble)
    (rest : List Byte) : spanPackets (statusHead kind ch :: rest) = cv3Packets (statusHead kind ch) rest := by
  refine spanPackets_cv3 rest ?_ ?_ <;> rw [statusHead_kind]
  · revert kind; decide
  · revert kind; decide

theorem spanPackets_dataHead (d : BitVec 7) (rest : List Byte) :
    spanPackets (dataHead d :: rest) = cv3Packets (dataHead d) rest := by
  have hd : ∀ d : BitVec 7, dataHead d &&& 0xF0#8 ≠ 0xF0#8 ∧
      ¬(dataHead d &&& 0xF0#8 = 0xC0#8 ∨ dataHead d &&& 0xF0#8 = 0xD0#8) := by decide
  exact spanPackets_cv3 rest (hd d).1 (hd d).2

theorem spanPackets_F1 (rest : List Byte) : spanPackets (0xF1#8 :: rest) = sc2Packets 0xF1#8 rest := rfl

theorem spanPackets_F2 (rest : List Byte) : spanPackets (0xF2#8 :: rest) = sc3Packets 0xF2#8 rest := by
  simp [spanPackets]

theorem spanPackets_F3 (rest : List Byte) : spanPackets (0xF3#8 :: rest) = sc2Packets 0xF3#8 rest := rfl

/-- A head from 0xF4 on goes the 1-byte way (R186). -/
theorem spanPackets_oneByte {b : Byte} (rest : List Byte) (h : 0xF4 ≤ b.toNat) :
    spanPackets (b :: rest) = oneBytePackets b rest := by
  have hsys : ∀ b : Byte, 0xF4 ≤ b.toNat →
      b &&& 0xF0#8 = 0xF0#8 ∧ b ≠ 0xF0#8 ∧ b ≠ 0xF1#8 ∧ b ≠ 0xF2#8 ∧ b ≠ 0xF3#8 := by decide
  obtain ⟨hF, h0, h1, h2, h3⟩ := hsys b h
  simp [spanPackets, hF, h0, h1, h2, h3, h]

theorem oneByteHead_ge (lo : BitVec 2) : 0xF4 ≤ (oneByteHead lo).toNat := by
  revert lo; decide

theorem realTimeHead_ge (lo : BitVec 3) : 0xF4 ≤ (realTimeHead lo).toNat := by
  revert lo; decide

/-- A status row does what ENCODE_SINGLE of its span does (R193, R96). -/
theorem exec_span {i : Instr} (h : spanBytes i ≠ []) (s : State) : exec i s = exec (.encodeSingle (spanBytes i)) s := by
  have emits {i : Instr} {ps : List Packet} (hi : exec i s = command (emitPackets ps) s)
      (hp : spanPackets (spanBytes i) = ps) : exec i s = exec (.encodeSingle (spanBytes i)) s := by
    subst hp
    exact hi
  cases i with
  | midiCv3_8n ch rest | midiCv3_9n ch rest | midiCv3_An ch rest | midiCv3_Bn ch rest | midiCv3_En ch rest =>
    exact emits rfl (spanPackets_statusHead_cv3 (by decide) ch rest)
  | midiCv2_Cn ch rest | midiCv2_Dn ch rest => exact emits rfl (spanPackets_statusHead_cv2 (by decide) ch rest)
  | midiLeadingData d rest => exact emits rfl (spanPackets_dataHead d rest)
  | midiSysex rest => exact emits rfl (spanPackets_sysex rest)
  | midiSc2_F1 rest => exact emits rfl (spanPackets_F1 rest)
  | midiSc3_F2 rest => exact emits rfl (spanPackets_F2 rest)
  | midiSc2_F3 rest => exact emits rfl (spanPackets_F3 rest)
  | midi1b_F4_F7 lo rest => exact emits rfl (spanPackets_oneByte rest (oneByteHead_ge lo))
  | midiRt_F8_FF lo rest => exact emits rfl (spanPackets_oneByte rest (realTimeHead_ge lo))
  | _ => exact absurd rfl h

/-! The channel-voice classes (R183). -/

theorem cvCin_statusHead (kind ch : Nibble) : cvCin (statusHead kind ch) = kind.setWidth 8 := by
  revert kind ch; decide

theorem cv3Packets_dropped (b : Byte) {rest : List Byte} (h : rest.length ≠ 2) : cv3Packets b rest = [] := by
  unfold cv3Packets
  split
  · exact absurd rfl h
  · rfl

theorem cv2Packets_dropped (b : Byte) {rest : List Byte} (h : rest.length ≠ 1) : cv2Packets b rest = [] := by
  unfold cv2Packets
  split
  · exact absurd rfl h
  · rfl

/-- One packet, where there is room for it, is appended and nothing else changes (R181). -/
theorem command_emitPackets_one {s : State} (h0 : s.fault = 0x00#8)
    (hroom : s.scr.length + 4 ≤ s.params.txScratchBytes) (p : Packet) :
    command (emitPackets [p]) s = .next (s.withScr (s.scr ++ p.bytes)) := by
  rw [command_running h0, emitPackets_fits hroom]
  rfl

theorem command_emitPackets_none {ps : List Packet} (s : State) (h : ps = []) :
    command (emitPackets ps) s = .next s := by
  subst h
  exact congrArg _ (ite_self s)

/-- A channel-voice packet of 3 bytes: its CIN is the status byte's kind, its bytes are the span's (R92, R183). -/
theorem command_emit_cv3 {s : State} (h0 : s.fault = 0x00#8) (hroom : s.scr.length + 4 ≤ s.params.txScratchBytes)
    (kind ch : Nibble) (d1 d2 : Byte) :
    command (emitPackets (cv3Packets (statusHead kind ch) [d1, d2])) s =
      .next (s.withScr (s.scr ++ [kind.setWidth 8, kind ++ ch, d1, d2])) := by
  rw [cv3Packets, command_emitPackets_one h0 hroom, cvCin_statusHead]
  rfl

/-- A channel-voice packet of 2 bytes, padded with a zero (R92, R183). -/
theorem command_emit_cv2 {s : State} (h0 : s.fault = 0x00#8) (hroom : s.scr.length + 4 ≤ s.params.txScratchBytes)
    (kind ch : Nibble) (d1 : Byte) :
    command (emitPackets (cv2Packets (statusHead kind ch) [d1])) s =
      .next (s.withScr (s.scr ++ [kind.setWidth 8, kind ++ ch, d1, 0x00#8])) := by
  rw [cv2Packets, command_emitPackets_one h0 hroom, cvCin_statusHead]
  rfl

/-! The packet rows (R91, R147). -/

/-- A payload that fits is appended to the queue of an armed block, and nothing else changes (R140). -/
theorem command_enqueuePayload_fits {s : State} {bs : List Byte} (h0 : s.fault = 0x00#8) (ha : s.rxActive = true)
    (hroom : s.q.length + bs.length ≤ s.params.rxqCapacity) :
    command (enqueuePayload bs) s = .next (s.withQ (s.q ++ bs)) := by
  have hq : s.q.length ≤ s.params.rxqCapacity := by omega
  rw [command_running h0, enqueuePayload, if_neg (by simp [ha]), copyPayload_spec bs s hq, if_pos hroom]

/-! The hand-off (R99, R220, R221). -/

/-- The two halves of a count of 16 bits are the count, the high byte first (R53). -/
theorem highByte_lowByte {c : Nat} (h : c ≤ 65535) : (highByte c).toNat * 256 + (lowByte c).toNat = c := by
  simp only [highByte, lowByte, BitVec.toNat_ofNat]
  omega

theorem exec_encode_fits {s : State} {m : List Byte} (h0 : s.fault = 0x00#8)
    (hroom : s.scr.length + 4 * (scanPackets m).length ≤ s.params.txScratchBytes) :
    exec (.encode m) s = .next (s.withScr (s.scr ++ packetsBytes (scanPackets m))) :=
  (command_running h0).trans (congrArg _ (emitPackets_fits hroom))

theorem exec_txTake {s : State} (h0 : s.fault = 0x00#8) :
    exec .txTake s = .next (s.respond (highByte s.txPtr :: lowByte s.txPtr :: s.scr)) := by
  simp only [exec, execTxTake, command_running h0]

theorem exec_txRelease {s : State} (h0 : s.fault = 0x00#8) : exec .txRelease s = .next (s.withScr []) := by
  simp only [exec, execTxRelease, command_running h0]

/-! Response bytes (R83, R84). -/

@[simp] theorem copyPayload_respPort (bs : List Byte) (s : State) : (copyPayload bs s).respPort = s.respPort := by
  obtain h | ⟨h, -⟩ := copyPayload_cases bs s <;> simp [h]

@[simp] theorem emitPackets_respPort (ps : List Packet) (s : State) : (emitPackets ps s).respPort = s.respPort := by
  obtain ⟨k, h | h, -⟩ := emitPackets_cases ps s <;> simp [h]

@[simp] theorem enqueuePayload_respPort (bs : List Byte) (s : State) :
    (enqueuePayload bs s).respPort = s.respPort := by
  unfold enqueuePayload
  split <;> simp

@[simp] theorem decodePacket_respPort (p : List Byte) (s : State) : (decodePacket p s).respPort = s.respPort := by
  unfold decodePacket
  repeat' split
  all_goals simp

/-- What a running command puts behind the responses already there. -/
theorem command_responds {f : State → State} {s t : State} {n : Nat} (r : List Byte) (h : command f s = .next t)
    (h0 : s.fault = 0x00#8) (hf : (f s).respPort = s.respPort ++ r) (hn : r.length = n) :
    ∃ r, t.respPort = s.respPort ++ r ∧ r.length = n := by
  rw [command_running h0] at h
  cases h
  exact ⟨r, hf, hn⟩

/-- A running command that leaves the response port gives no response byte. -/
theorem command_silent {f : State → State} {s t : State} (h : command f s = .next t) (h0 : s.fault = 0x00#8)
    (hf : (f s).respPort = s.respPort) : ∃ r, t.respPort = s.respPort ++ r ∧ r.length = 0 :=
  command_responds [] h h0 (by simpa using hf) rfl

/-- Every instruction gives the response bytes of its row (R84). -/
theorem exec_responds {i : Instr} {s t : State} (h0 : s.fault = 0x00#8) (h : exec i s = .next t) :
    ∃ r, t.respPort = s.respPort ++ r ∧ r.length = responseCount i s := by
  cases i with
  | qwrite b =>
    simp only [exec, execQwrite] at h
    exact command_responds [_] h h0 rfl rfl
  | qread =>
    simp only [exec, execQread] at h
    cases hq : s.q with
    | nil => exact command_responds [] h h0 (by simp [queuePop, hq]) (by simp [responseCount, hq])
    | cons b rest => exact command_responds [b] h h0 (by simp [queuePop, hq]) (by simp [responseCount, hq])
  | qreadable =>
    simp only [exec, execQreadable] at h
    exact command_responds [_, _] h h0 rfl rfl
  | qisempty =>
    simp only [exec, execQisempty] at h
    exact command_responds [_] h h0 rfl rfl
  | rxActive =>
    simp only [exec, execRxActive] at h
    exact command_responds [_] h h0 rfl rfl
  | txTake =>
    simp only [exec, execTxTake] at h
    exact command_responds ([highByte s.txPtr, lowByte s.txPtr] ++ s.scr) h h0 rfl List.length_append
  | status => cases h; exact ⟨[s.fault], rfl, rfl⟩
  | qflush | rxFlush => exact command_silent h h0 rfl
  | rxArm | txRelease | usbmidiCin0 | usbmidiCin1 =>
    simp only [exec, execRxArm, execTxRelease, execUsbmidiCin0, execUsbmidiCin1] at h
    exact command_silent h h0 rfl
  | decode p => exact command_silent h h0 (decodePacket_respPort p s)
  | usbmidiCin2 | usbmidiCin3 | usbmidiCin4 | usbmidiCin5 | usbmidiCin6 | usbmidiCin7 | usbmidiCin8 | usbmidiCin9
  | usbmidiCinA | usbmidiCinB | usbmidiCinC | usbmidiCinD | usbmidiCinE | usbmidiCinF =>
    exact command_silent h h0 (enqueuePayload_respPort _ s)
  | encode | encodeSingle | midiCv3_8n | midiCv3_9n | midiCv3_An | midiCv3_Bn | midiCv2_Cn | midiCv2_Dn | midiCv3_En
  | midiLeadingData | midiSysex | midiSc2_F1 | midiSc3_F2 | midiSc2_F3 | midi1b_F4_F7 | midiRt_F8_FF =>
    exact command_silent h h0 (emitPackets_respPort _ s)

/-! Every outcome is a next state (R89, R244, R245). -/

theorem exec_goes (i : Instr) (s : State) : Goes (exec i s) := by
  cases i <;> exact ⟨_, rfl⟩

theorem step_goes (s : State) : Goes (step s) := by
  unfold step
  cases fetch s with
  | run i t => exact exec_goes i t
  | settle t => exact ⟨t, rfl⟩

end Sys2Proof.Machine

namespace Sys2Proof.Proofs

open Sys2Proof.Machine

/-- Settles O22: each row's payload has the size that DECODE reads from the table. -/
theorem packetRowsAreDecode : Obligations.PacketRowsAreDecode := fun s p0 m0 m1 m2 => exec_packetRow p0 m0 m1 m2 s

/-- Settles O38: the row of a span has that span, and does what ENCODE_SINGLE of it does. -/
theorem statusRowsAreEncodeSingle : Obligations.StatusRowsAreEncodeSingle := by
  intro s b rest
  have hb := spanBytes_classRow b rest
  have hrow := exec_span (i := classRow b rest) (by simp [hb]) s
  rwa [hb] at hrow

/-- Settles O31: the packet of the required size for each kind, and no packet for any other size. -/
theorem channelVoiceRows : Obligations.ChannelVoiceRows := by
  intro s ch h0
  refine ⟨fun d1 d2 hroom => ?_, fun rest => ⟨fun h => ?_, fun h => ?_⟩⟩
  · have cv3 (kind : Nibble) := command_emit_cv3 h0 hroom kind ch d1 d2
    have cv2 (kind : Nibble) := command_emit_cv2 h0 hroom kind ch d1
    exact ⟨cv3 _, cv3 _, cv3 _, cv3 _, cv3 _, cv2 _, cv2 _⟩
  · have dropped (b : Byte) := command_emitPackets_none s (cv3Packets_dropped b h)
    exact ⟨dropped _, dropped _, dropped _, dropped _, dropped _⟩
  · have dropped (b : Byte) := command_emitPackets_none s (cv2Packets_dropped b h)
    exact ⟨dropped _, dropped _⟩

/-- Settles O19: each row enqueues its payload, of 1, 2 or 3 bytes. -/
theorem packetRowsEnqueue : Obligations.PacketRowsEnqueue := by
  intro s cable m0 m1 m2 h0 ha
  have fits (bs : List Byte) := command_enqueuePayload_fits (bs := bs) h0 ha
  refine ⟨fun h => ?_, fun h => ?_, fun h => ?_⟩
  · exact ⟨fits _ h, fits _ h⟩
  · exact ⟨fits _ h, fits _ h, fits _ h, fits _ h⟩
  · exact ⟨fits _ h, fits _ h, fits _ h, fits _ h, fits _ h, fits _ h, fits _ h, fits _ h⟩

/-- Settles O49: ENCODE leaves the packets alone in the scratch buffer, TX_TAKE responds them behind their length, and
TX_RELEASE empties the buffer, which is how it was. -/
theorem txSendsAndReleases : Obligations.TxSendsAndReleases := by
  intro s m hp h0 hscr hroom
  obtain ⟨-, -, -, hsize, -⟩ := hp
  refine ⟨highByte (4 * (scanPackets m).length), lowByte (4 * (scanPackets m).length),
    highByte_lowByte (by omega), ?_⟩
  have encoded : exec (.encode m) s = .next (s.withScr (packetsBytes (scanPackets m))) := by
    simpa [hscr] using exec_encode_fits (m := m) h0 (by simpa [hscr] using hroom)
  simp only [pseudoTx, execAll, encoded, exec_txTake, exec_txRelease, State.withScr_fault, State.respond_fault, h0]
  simp [State.txPtr, State.withScr, State.respond, hscr, h0]

/-- Settles O9, by cases of the instruction: most leave the response port as it is. -/
theorem responseCounts : Obligations.ResponseCounts := fun _ _ _ => exec_responds

/-- Settles O56: an instruction is a command or STATUS, and what the port settles is a state. -/
theorem nothingStopsTheBlock : Obligations.NothingStopsTheBlock := ⟨exec_goes, step_goes⟩

end Sys2Proof.Proofs
end

section
/-! PROOFS. The byte queue (40_byte_queue.md): what each of its commands does to a running block (R121 to R125), and that
the queue gives back what was written, in order (R120). -/

namespace Sys2Proof.Machine

/-! Queue updates and responses one after the other. -/

@[simp] theorem State.withQ_self (s : State) : s.withQ s.q = s := rfl

@[simp] theorem State.withQ_withQ (s : State) (x y : List Byte) : (s.withQ x).withQ y = s.withQ y := rfl

@[simp] theorem State.withQ_respond (s : State) (q bs : List Byte) :
    (s.respond bs).withQ q = (s.withQ q).respond bs := rfl

@[simp] theorem State.respond_respond (s : State) (x y : List Byte) :
    (s.respond x).respond y = s.respond (x ++ y) := by
  simp [State.respond]

/-- The first of several instructions answers a state, and the others run from it (R61). -/
theorem execAll_cons {i : Instr} {s t : State} (h : exec i s = .next t) (is : List Instr) :
    execAll (i :: is) s = execAll is t := by
  rw [execAll, h]

/-! The commands of a running block. -/

theorem exec_qwrite_room {s : State} (b : Byte) (h0 : s.fault = 0x00#8) (h : s.q.length ≠ s.params.rxqCapacity) :
    exec (.qwrite b) s = .next ((s.withQ (s.q ++ [b])).respond [0x00#8]) := by
  simp only [exec, execQwrite, command_running h0, queuePush_room b h, pushResponse]

theorem exec_qwrite_full {s : State} (b : Byte) (h0 : s.fault = 0x00#8) (h : s.q.length = s.params.rxqCapacity) :
    exec (.qwrite b) s = .next (s.respond [0x01#8]) := by
  simp only [exec, execQwrite, command_running h0, queuePush_full b h, pushResponse, State.withQ_self]

theorem exec_qread_cons {s : State} {b : Byte} {rest : List Byte} (h0 : s.fault = 0x00#8) (h : s.q = b :: rest) :
    exec .qread s = .next ((s.withQ rest).respond [b]) := by
  simp only [exec, execQread, command_running h0, h, queuePop]

theorem exec_qread_empty {s : State} (h0 : s.fault = 0x00#8) (h : s.q = []) :
    exec .qread s = .next (s.raiseFault faultQueueEmpty) := by
  simp only [exec, execQread, command_running h0, h, queuePop]

theorem exec_qflush {s : State} (h0 : s.fault = 0x00#8) : exec .qflush s = .next s.flushQ := command_running h0

theorem exec_qreadable {s : State} (h0 : s.fault = 0x00#8) :
    exec .qreadable s = .next (s.respond [highByte s.qCount, lowByte s.qCount]) := by
  simp only [exec, execQreadable, command_running h0]

theorem exec_qisempty {s : State} (h0 : s.fault = 0x00#8) :
    exec .qisempty s = .next (s.respond [flagResponse s.q.isEmpty]) := by
  simp only [exec, execQisempty, command_running h0]

theorem flagResponse_isEmpty (q : List Byte) : flagResponse q.isEmpty = if q = [] then 0x01#8 else 0x00#8 := by
  cases q <;> rfl

/-! Several writes, and several reads (R120). -/

/-- Writes with room for all their bytes put them behind those already queued, in order. -/
theorem execAll_qwrite {s : State} {bs : List Byte} (h0 : s.fault = 0x00#8)
    (hroom : s.q.length + bs.length ≤ s.params.rxqCapacity) :
    execAll (bs.map .qwrite) s = .next ((s.withQ (s.q ++ bs)).respond (List.replicate bs.length 0x00#8)) := by
  induction bs generalizing s with
  | nil => simp [execAll]
  | cons b bs ih =>
    rw [List.length_cons] at hroom
    have first := exec_qwrite_room b h0 (by omega)
    rw [List.map_cons, execAll_cons first,
      ih (s := (s.withQ (s.q ++ [b])).respond [0x00#8]) h0 (by simp; omega)]
    simp [List.replicate_succ]

/-- As many reads as there are queued bytes respond them, oldest first, and leave the queue empty. -/
theorem execAll_qread {s : State} {q : List Byte} (h0 : s.fault = 0x00#8) (hq : s.q = q) :
    execAll (List.replicate q.length .qread) s = .next ((s.withQ []).respond q) := by
  induction q generalizing s with
  | nil =>
    have same : s.withQ [] = s := by rw [← hq, State.withQ_self]
    simp [execAll, same]
  | cons b q ih =>
    have first := exec_qread_cons h0 hq
    rw [List.length_cons, List.replicate_succ, execAll_cons first, ih (s := (s.withQ q).respond [b]) h0 rfl]
    simp

end Sys2Proof.Machine

namespace Sys2Proof.Proofs

open Sys2Proof.Machine

/-- Settles O15, by induction on the bytes written, and on the bytes queued. -/
theorem queueIsFifo : Obligations.QueueIsFifo := fun _ _ h0 hroom =>
  ⟨execAll_qwrite h0 hroom, execAll_qread h0 rfl⟩

/-- Settles O10: the push finds room or finds the queue full. -/
theorem qwritePushesOrOverflows : Obligations.QwritePushesOrOverflows := fun _ b h0 =>
  ⟨fun rest => decodePort_encodeInstr (i := .qwrite b) rest trivial, exec_qwrite_room b h0, exec_qwrite_full b h0⟩

/-- Settles O11: the pop finds an oldest byte or an empty queue. -/
theorem qreadPopsOrFaults : Obligations.QreadPopsOrFaults := fun _ h0 =>
  ⟨fun rest => decodePort_encodeInstr (i := .qread) rest trivial, fun _ _ => exec_qread_cons h0, exec_qread_empty h0⟩

/-- Settles O12: the flush, on the sequence and on the ring view. -/
theorem qflushEmpties : Obligations.QflushEmpties := fun _ h0 =>
  ⟨fun rest => decodePort_encodeInstr (i := .qflush) rest trivial, exec_qflush h0, fun _ _ => ⟨rfl, rfl, rfl, rfl⟩⟩

/-- Settles O13: the response is the two halves of the count, and a count of 16 bits is its two halves. -/
theorem qreadableReportsCount : Obligations.QreadableReportsCount := fun _ h0 hcount =>
  ⟨fun rest => decodePort_encodeInstr (i := .qreadable) rest trivial,
    _, _, highByte_lowByte hcount, exec_qreadable h0⟩

/-- Settles O14: the response is the flag byte of the empty test. -/
theorem qisemptyTests : Obligations.QisemptyTests := by
  intro s h0
  refine ⟨fun rest => decodePort_encodeInstr (i := .qisempty) rest trivial, ?_⟩
  rw [exec_qisempty h0, flagResponse_isEmpty]
  rfl

end Sys2Proof.Proofs
end

section
/-! PROOFS. What the USB-MIDI decoder discards and what it does not read (41_decoder.md R140 to R145): short packets,
packets of a reserved CIN, all packets of a disarmed block, the cable bits and the bytes past the payload. -/

namespace Sys2Proof.Machine

/-! What changes nothing. -/

/-- A command whose effect leaves a state answers it, faulted or not. -/
theorem command_unchanged {f : State → State} {s : State} (h : f s = s) : command f s = .next s := by
  rw [command, h, ite_self]

/-- Instructions that each change nothing change nothing one after the other. -/
theorem execAll_unchanged {is : List Instr} {s : State} (h : ∀ i ∈ is, exec i s = .next s) :
    execAll is s = .next s := by
  induction is with
  | nil => rfl
  | cons i is ih =>
    rw [List.forall_mem_cons] at h
    obtain ⟨first, others⟩ := h
    rw [execAll_cons first, ih others]

/-- Fewer than 4 packet bytes are discarded, whether the block is armed or not (R142). -/
theorem decodePacket_short {p : List Byte} (s : State) (h : p.length < 4) : decodePacket p s = s := by
  rw [decodePacket, if_neg (by omega), if_pos h, ite_self]

/-- A disarmed block discards every packet the port can carry (R140 step 1). -/
theorem decodePacket_disarmed {p : List Byte} {s : State} (ha : s.rxActive = false) (h : p.length ≤ 4) :
    decodePacket p s = s := by
  rw [decodePacket, if_neg (by omega), if_pos ha]

/-- Whichever row the DECODE command's operand field is read as, it does what DECODE of these bytes does (R140, R142). -/
theorem exec_decodeRow (p : List Byte) (s : State) : exec (decodeRow p) s = exec (.decode p) s := by
  unfold decodeRow
  split
  · exact exec_packetRow _ _ _ _ s
  · rfl

theorem exec_decodeRow_disarmed {p : List Byte} {s : State} (ha : s.rxActive = false) (h : p.length ≤ 4) :
    exec (decodeRow p) s = .next s :=
  (exec_decodeRow p s).trans (command_unchanged (decodePacket_disarmed ha h))

theorem exec_rxArm {s : State} (h0 : s.fault = 0x00#8) : exec .rxArm s = .next (s.flushQ.withRxActive true) := by
  simp only [exec, execRxArm, command_running h0]

/-! What a packet row reads of its packet. -/

/-- A packet row reads byte 0 for its CIN alone (R144). -/
theorem exec_packetRow_effect (p0 m0 m1 m2 : Byte) (s : State) :
    exec (packetRow p0 m0 m1 m2) s = command (packetEffect (cinOf p0) [m0, m1, m2]) s :=
  (exec_packetRow p0 m0 m1 m2 s).trans (exec_decode_whole m0 m1 m2 s rfl)

/-- The effect reads no byte past the payload (R145). -/
theorem packetEffect_congr {cin : Byte} {m n : List Byte}
    (h : m.take (payloadSize cin) = n.take (payloadSize cin)) : packetEffect cin m = packetEffect cin n := by
  funext s
  rw [packetEffect, packetEffect, h]

end Sys2Proof.Machine

namespace Sys2Proof.Proofs

open Sys2Proof.Machine

/-- Settles O21: a disarmed block keeps its state over each packet, so over all of them. -/
theorem failStopLastsUntilRxArm : Obligations.FailStopLastsUntilRxArm := by
  intro s ps ha
  refine ⟨execAll_unchanged fun i hi => ?_, exec_rxArm⟩
  obtain ⟨p, -, rfl⟩ := List.mem_map.mp hi
  exact exec_decodeRow_disarmed (p := p.bytes) ha (Nat.le_refl 4)

/-- Settles O23: the effect depends on byte 0 through its CIN only. -/
theorem cableBitsNotRead : Obligations.CableBitsNotRead := by
  intro s p0 p0' m0 m1 m2 h
  rw [exec_packetRow_effect, exec_packetRow_effect, cinOf, h, cinOf]

/-- Settles O24: the effect depends on the bytes behind byte 0 through the payload only. -/
theorem bytesPastPayloadNotRead : Obligations.BytesPastPayloadNotRead := by
  intro s p0 m0 m1 m2 n0 n1 n2 h
  rw [exec_packetRow_effect, exec_packetRow_effect, packetEffect_congr h]

/-- Settles O17: the two early returns of the decoder, and the row is the command. -/
theorem shortOrDisarmedDecodeIgnored : Obligations.ShortOrDisarmedDecodeIgnored := fun s _ =>
  ⟨fun h => command_unchanged (decodePacket_short s h), exec_decodeRow_disarmed⟩

/-- Settles O18: the effect of a reserved row is the identity. -/
theorem reservedCinsDiscarded : Obligations.ReservedCinsDiscarded := fun _ _ _ _ _ =>
  ⟨command_unchanged (f := id) rfl, command_unchanged (f := id) rfl⟩

end Sys2Proof.Proofs
end

section
/-! PROOFS. The receive control commands (42_rx_control.md R160 to R162): arming, flushing and reading the armed flag. -/

namespace Sys2Proof.Machine

/-- An instruction that finds the block disarmed and leaves it armed is RX_ARM: every other effect keeps the flag or
clears it (R22, R160). -/
theorem Effect.eq_rxArm_of_armed {i : Instr} {s t : State} (h : Effect i s t) (hs : s.rxActive = false)
    (ht : t.rxActive = true) : i = .rxArm := by
  obtain hsame | ⟨hi, -⟩ | ⟨-, -, -, hoff, -⟩ := h.rxActive_cases
  · simp [hs, ht] at hsame
  · exact hi
  · simp [ht] at hoff

/-- Inside the block RX_FLUSH and QFLUSH are one effect, faulted or not (R161). -/
theorem exec_rxFlush_eq_qflush (s : State) : exec .rxFlush s = exec .qflush s := rfl

theorem exec_rxActive {s : State} (h0 : s.fault = 0x00#8) :
    exec .rxActive s = .next (s.respond [flagResponse s.rxActive]) := by
  simp only [exec, execRxActive, command_running h0]

end Sys2Proof.Machine

namespace Sys2Proof.Proofs

open Sys2Proof.Machine

/-- Settles O25: the command flushes and arms, and no other effect arms a disarmed block. -/
theorem rxArmFlushesAndArms : Obligations.RxArmFlushesAndArms := fun _ h0 =>
  ⟨fun rest => decodePort_encodeInstr (i := .rxArm) rest trivial, exec_rxArm h0,
    fun _ _ hs h => (exec_effect h).eq_rxArm_of_armed hs⟩

/-- Settles O26: RX_FLUSH is QFLUSH, whose effect is on the queue alone. -/
theorem rxFlushKeepsArmed : Obligations.RxFlushKeepsArmed := fun s h0 =>
  ⟨fun rest => decodePort_encodeInstr (i := .rxFlush) rest trivial,
    (exec_rxFlush_eq_qflush s).trans (exec_qflush h0), exec_rxFlush_eq_qflush s⟩

/-- Settles O27: the response is the flag byte of RX_ACTIVE. -/
theorem rxActiveReports : Obligations.RxActiveReports := fun _ h0 =>
  ⟨fun rest => decodePort_encodeInstr (i := .rxActive) rest trivial, exec_rxActive h0⟩

end Sys2Proof.Proofs
end

section
/-! PROOFS. What the encoder emits (43_encoder.md R180 to R189, R199): the emission of any packets with and without room,
and the packets of a span by the class of its head, the SysEx framing among them. -/

namespace Sys2Proof.Machine

/-! Emission with and without room (R180, R181, R199). -/

/-- Packets that all fit are appended, and nothing else changes. -/
theorem command_emitPackets_fits {ps : List Packet} {s : State} (h0 : s.fault = 0x00#8)
    (hroom : s.scr.length + 4 * ps.length ≤ s.params.txScratchBytes) :
    command (emitPackets ps) s = .next (s.withScr (s.scr ++ packetsBytes ps)) := by
  rw [command_running h0, emitPackets_fits hroom]

/-- Where some packet does not fit, those before it are appended and the fault is taken. -/
theorem command_emitPackets_overflows {ps : List Packet} {s : State} (h0 : s.fault = 0x00#8)
    (hs : s.scr.length ≤ s.params.txScratchBytes)
    (h : (s.params.txScratchBytes - s.scr.length) / 4 < ps.length) :
    command (emitPackets ps) s =
      .next ((s.withScr (s.scr ++ packetsBytes (ps.take ((s.params.txScratchBytes - s.scr.length) / 4)))).raiseFault
        faultScratchOverflow) := by
  rw [command_running h0, emitPackets_overflows hs h]

/-! The system classes drop a span of the wrong size (R184 to R186). -/

theorem sc3Packets_dropped (b : Byte) {rest : List Byte} (h : rest.length ≠ 2) : sc3Packets b rest = [] := by
  unfold sc3Packets
  split
  · exact absurd rfl h
  · rfl

theorem sc2Packets_dropped (b : Byte) {rest : List Byte} (h : rest.length ≠ 1) : sc2Packets b rest = [] := by
  unfold sc2Packets
  split
  · exact absurd rfl h
  · rfl

theorem oneBytePackets_dropped (b : Byte) {rest : List Byte} (h : rest ≠ []) : oneBytePackets b rest = [] := by
  unfold oneBytePackets
  split
  · exact absurd rfl h
  · rfl

/-! The heads of the 1-byte rows as numbers (R186). -/

theorem oneByteHead_eq (lo : BitVec 2) : oneByteHead lo = BitVec.ofNat 8 (0xF4 + lo.toNat) := by
  revert lo; decide

theorem realTimeHead_eq (lo : BitVec 3) : realTimeHead lo = BitVec.ofNat 8 (0xF8 + lo.toNat) := by
  revert lo; decide

/-! Every head is of one class (R94, R182). -/

/-- The packets of a span are those of the class of its head, and each head is in one of the classes. -/
theorem spanPackets_cases (b : Byte) (rest : List Byte) :
    (b &&& 0xF0#8 ≠ 0xF0#8 ∧ (b &&& 0xF0#8 = 0xC0#8 ∨ b &&& 0xF0#8 = 0xD0#8) ∧
      spanPackets (b :: rest) = cv2Packets b rest) ∨
    (b &&& 0xF0#8 ≠ 0xF0#8 ∧ ¬(b &&& 0xF0#8 = 0xC0#8 ∨ b &&& 0xF0#8 = 0xD0#8) ∧
      spanPackets (b :: rest) = cv3Packets b rest) ∨
    (b = 0xF0#8 ∧ spanPackets (b :: rest) = sysexPackets (b :: rest)) ∨
    ((b = 0xF1#8 ∨ b = 0xF3#8) ∧ spanPackets (b :: rest) = sc2Packets b rest) ∨
    (b = 0xF2#8 ∧ spanPackets (b :: rest) = sc3Packets b rest) ∨
    (0xF4 ≤ b.toNat ∧ spanPackets (b :: rest) = oneBytePackets b rest) := by
  have system : ∀ b : Byte, b &&& 0xF0#8 = 0xF0#8 →
      b = 0xF0#8 ∨ b = 0xF1#8 ∨ b = 0xF3#8 ∨ b = 0xF2#8 ∨ 0xF4 ≤ b.toNat := by decide
  by_cases hsys : b &&& 0xF0#8 = 0xF0#8
  · obtain rfl | rfl | rfl | rfl | h := system b hsys
    · exact .inr (.inr (.inl ⟨rfl, spanPackets_sysex rest⟩))
    · exact .inr (.inr (.inr (.inl ⟨.inl rfl, spanPackets_F1 rest⟩)))
    · exact .inr (.inr (.inr (.inl ⟨.inr rfl, spanPackets_F3 rest⟩)))
    · exact .inr (.inr (.inr (.inr (.inl ⟨rfl, spanPackets_F2 rest⟩))))
    · exact .inr (.inr (.inr (.inr (.inr ⟨h, spanPackets_oneByte rest h⟩))))
  · by_cases h2 : b &&& 0xF0#8 = 0xC0#8 ∨ b &&& 0xF0#8 = 0xD0#8
    · exact .inl ⟨hsys, h2, spanPackets_cv2 rest h2⟩
    · exact .inr (.inl ⟨hsys, h2, spanPackets_cv3 rest hsys h2⟩)

/-! The span size each class requires (R94). -/

theorem requiredSize_cv2 {b : Byte} (h : b &&& 0xF0#8 = 0xC0#8 ∨ b &&& 0xF0#8 = 0xD0#8) : requiredSize b = 2 := by
  revert b; decide

theorem requiredSize_cv3 {b : Byte} (hsys : b &&& 0xF0#8 ≠ 0xF0#8)
    (h : ¬(b &&& 0xF0#8 = 0xC0#8 ∨ b &&& 0xF0#8 = 0xD0#8)) : requiredSize b = 3 := by
  rw [requiredSize, if_pos hsys, if_neg h]

theorem requiredSize_sc2 {b : Byte} (h : b = 0xF1#8 ∨ b = 0xF3#8) : requiredSize b = 2 := by
  rcases h with rfl | rfl <;> decide

theorem requiredSize_oneByte {b : Byte} (h : 0xF4 ≤ b.toNat) : requiredSize b = 1 := by
  revert b; decide

/-! How many packets a span gives (R189, R196). -/

theorem cv2Packets_length_le (b : Byte) (rest : List Byte) : (cv2Packets b rest).length ≤ 1 := by
  unfold cv2Packets; split <;> simp

theorem cv3Packets_length_le (b : Byte) (rest : List Byte) : (cv3Packets b rest).length ≤ 1 := by
  unfold cv3Packets; split <;> simp

theorem sc2Packets_length_le (b : Byte) (rest : List Byte) : (sc2Packets b rest).length ≤ 1 := by
  unfold sc2Packets; split <;> simp

theorem sc3Packets_length_le (b : Byte) (rest : List Byte) : (sc3Packets b rest).length ≤ 1 := by
  unfold sc3Packets; split <;> simp

theorem oneBytePackets_length_le (b : Byte) (rest : List Byte) : (oneBytePackets b rest).length ≤ 1 := by
  unfold oneBytePackets; split <;> simp

/-- Only SysEx gives more than one packet (R189). -/
theorem spanPackets_length_le_one {b : Byte} (rest : List Byte) (hb : b ≠ 0xF0#8) :
    (spanPackets (b :: rest)).length ≤ 1 := by
  obtain ⟨-, -, h⟩ | ⟨-, -, h⟩ | ⟨h, -⟩ | ⟨-, h⟩ | ⟨-, h⟩ | ⟨-, h⟩ := spanPackets_cases b rest
  · exact h ▸ cv2Packets_length_le b rest
  · exact h ▸ cv3Packets_length_le b rest
  · exact absurd h hb
  · exact h ▸ sc2Packets_length_le b rest
  · exact h ▸ sc3Packets_length_le b rest
  · exact h ▸ oneBytePackets_length_le b rest

/-- A span of n bytes gives at most ceil(n / 3) packets (R196). -/
theorem spanPackets_length_le (m : List Byte) : (spanPackets m).length ≤ (m.length + 2) / 3 := by
  cases m with
  | nil => exact Nat.zero_le _
  | cons b rest =>
    by_cases hb : b = 0xF0#8
    · rw [hb, spanPackets_sysex, sysexPackets_length]
    · have one := spanPackets_length_le_one rest hb
      rw [List.length_cons]
      omega

/-! SysEx framing in index form (R187). -/

/-- The full triple at position `3 * c` of a SysEx span. -/
def sysexTriple (m : List Byte) (c : Nat) : Packet :=
  ⟨0x04#8, byteAt m (3 * c), byteAt m (3 * c + 1), byteAt m (3 * c + 2)⟩

/-- The terminal packet of a SysEx span: its last `r` bytes, from position `3 * k` on, filled up with zeros. -/
def sysexTail (m : List Byte) (k r : Nat) : Packet :=
  ⟨BitVec.ofNat 8 (5 + (r - 1)), byteAt m (3 * k), if 2 ≤ r then byteAt m (3 * k + 1) else 0x00#8,
    if r = 3 then byteAt m (3 * k + 2) else 0x00#8⟩

theorem sysexTriple_drop (a b c : Byte) (m : List Byte) (i : Nat) :
    sysexTriple (a :: b :: c :: m) (i + 1) = sysexTriple m i := rfl

theorem sysexTail_drop (a b c : Byte) (m : List Byte) (k r : Nat) :
    sysexTail (a :: b :: c :: m) (k + 1) r = sysexTail m k r := rfl

/-- The framing of any n >= 1 bytes: a triple for each `c` below k, and the tail. -/
theorem sysexPackets_framing {m : List Byte} (hm : m ≠ []) :
    sysexPackets m = (List.range ((m.length - 1) / 3)).map (sysexTriple m) ++
      [sysexTail m ((m.length - 1) / 3) (m.length - 3 * ((m.length - 1) / 3))] := by
  induction m using sysexPackets.induct with
  | case1 => exact absurd rfl hm
  | case2 | case3 | case4 => simp [sysexPackets, sysexTail, byteAt]
  | case5 a b c d rest ih =>
    have hk : ((a :: b :: c :: d :: rest).length - 1) / 3 = ((d :: rest).length - 1) / 3 + 1 := by
      simp only [List.length_cons]; omega
    have hr (k : Nat) : (a :: b :: c :: d :: rest).length - 3 * (k + 1) = (d :: rest).length - 3 * k := by
      simp only [List.length_cons]; omega
    rw [sysexPackets, ih (List.cons_ne_nil _ _), hk, hr, sysexTail_drop, List.range_succ_eq_map, List.map_cons,
      List.map_map, List.cons_append]
    rfl

end Sys2Proof.Machine

namespace Sys2Proof.Proofs

open Sys2Proof.Machine

/-- Settles O29: both commands emit their packets, and those fit. -/
theorem encodeAppendsPackets : Obligations.EncodeAppendsPackets := fun _ _ h0 =>
  ⟨command_emitPackets_fits h0, command_emitPackets_fits h0⟩

/-- Settles O30: both commands emit their packets, and those do not all fit. -/
theorem scratchOverflowKeepsEarlierPackets : Obligations.ScratchOverflowKeepsEarlierPackets := fun _ _ h0 hs =>
  ⟨command_emitPackets_overflows h0 hs, command_emitPackets_overflows h0 hs⟩

/-- Settles O48: the second ENCODE appends behind what the first has left. -/
theorem encodesAccumulate : Obligations.EncodesAccumulate := by
  intro s m n h0 hroom
  have first := exec_encode_fits (m := m) h0 (by omega)
  have second := exec_encode_fits (m := n) (s := s.withScr (s.scr ++ packetsBytes (scanPackets m))) h0
    (by simp; omega)
  rw [execAll_cons first, execAll_cons second]
  rfl

/-- Settles O39: no bytes, no packets. -/
theorem emptyInputIsNoOp : Obligations.EmptyInputIsNoOp := fun s =>
  ⟨command_emitPackets_none s rfl, command_emitPackets_none s rfl⟩

/-- Settles O32: the one packet of the required size, and none for another size. -/
theorem systemCommon3Row : Obligations.SystemCommon3Row := fun s h0 =>
  ⟨fun _ _ hroom => command_emitPackets_one h0 hroom _,
    fun _ h => command_emitPackets_none s (sc3Packets_dropped _ h)⟩

/-- Settles O33: the one packet of the required size for each status, and none for another size. -/
theorem systemCommon2Rows : Obligations.SystemCommon2Rows := fun s h0 =>
  ⟨fun _ hroom => ⟨command_emitPackets_one h0 hroom _, command_emitPackets_one h0 hroom _⟩,
    fun _ h => ⟨command_emitPackets_none s (sc2Packets_dropped _ h),
      command_emitPackets_none s (sc2Packets_dropped _ h)⟩⟩

/-- Settles O34: the one packet of a span of the status byte alone, and none for a longer span. -/
theorem oneByteRows : Obligations.OneByteRows := by
  intro s lo2 lo3 h0
  refine ⟨fun hroom => ?_, fun rest h => ?_⟩
  · rw [← oneByteHead_eq, ← realTimeHead_eq]
    exact ⟨command_emitPackets_one h0 hroom _, command_emitPackets_one h0 hroom _⟩
  · exact ⟨command_emitPackets_none s (oneBytePackets_dropped _ h),
      command_emitPackets_none s (oneBytePackets_dropped _ h)⟩

/-- Settles O36: the framing of the span's bytes, which are at least the head. -/
theorem sysexFraming : Obligations.SysexFraming := by
  intro rest m k r
  have hlen : m.length = rest.length + 1 := List.length_cons
  refine ⟨by omega, by omega, ?_⟩
  exact (spanPackets_sysex rest).trans (sysexPackets_framing (List.cons_ne_nil _ _))

/-- Settles O37: the number of the framing's packets, which fit. -/
theorem sysexRowAppends : Obligations.SysexRowAppends := by
  intro s rest h0 hroom
  have hlen : (spanPackets (0xF0#8 :: rest)).length = (rest.length + 3) / 3 := by
    rw [spanPackets_sysex, sysexPackets_length, List.length_cons]
  refine ⟨hlen, ?_⟩
  rw [exec_span (i := .midiSysex rest) (List.cons_ne_nil _ _)]
  exact command_emitPackets_fits h0 (hlen ▸ hroom)

/-- Settles O40: each class but SysEx gives at most one packet. -/
theorem atMostOnePacketPerSpan : Obligations.AtMostOnePacketPerSpan := fun _ rest hb =>
  spanPackets_length_le_one rest hb

end Sys2Proof.Proofs
end

section
/-! PROOFS. The scan (43_encoder.md R190 to R195): one turn of its loop, the induction over its turns, and what it makes of
a buffer of one span. -/

namespace Sys2Proof.Machine

theorem execAll_singleton (i : Instr) (s : State) : execAll [i] s = exec i s := by
  obtain ⟨t, h⟩ := exec_goes i s
  rw [execAll_cons h, h]
  rfl

/-! One turn of the scan's loop (R190). -/

/-- One turn takes the head and the data bytes behind it, and goes on at the end of the input or at a status byte. -/
theorem spans_turn (b : Byte) {ds after : List Byte} (hds : ∀ d ∈ ds, isStatus d = false)
    (hafter : ∀ c ∈ after.head?, isStatus c = true) : spans (b :: (ds ++ after)) = (b :: ds) :: spans after := by
  cases after with
  | nil => rw [List.append_nil, spans_data b ds hds, spans]
  | cons c rest => exact spans_data_status b c ds rest hds (hafter c rfl)

/-- The packets of one turn are emitted before those of the turns that follow (R190). -/
theorem scanPackets_turn (b : Byte) {ds after : List Byte} (hds : ∀ d ∈ ds, isStatus d = false)
    (hafter : ∀ c ∈ after.head?, isStatus c = true) :
    scanPackets (b :: (ds ++ after)) = spanPackets (b :: ds) ++ scanPackets after :=
  scanPackets_append _ after _ _ (spans_turn b hds hafter) rfl

/-- ENCODE of an input does what ENCODE_SINGLE of the first span and then ENCODE of the rest do (R190, R195). -/
theorem exec_encode_turn (b : Byte) {ds after : List Byte} (hds : ∀ d ∈ ds, isStatus d = false)
    (hafter : ∀ c ∈ after.head?, isStatus c = true) (s : State) :
    exec (.encode (b :: (ds ++ after))) s = execAll [.encodeSingle (b :: ds), .encode after] s := by
  obtain ⟨t, first⟩ := exec_goes (.encodeSingle (b :: ds)) s
  calc exec (.encode (b :: (ds ++ after))) s
      = command (emitPackets (spanPackets (b :: ds) ++ scanPackets after)) s := by
        rw [← scanPackets_turn b hds hafter]; rfl
    _ = exec (.encode after) t := command_emitPackets_append _ _ first
    _ = execAll [.encodeSingle (b :: ds), .encode after] s := by rw [execAll_cons first, execAll_singleton]

/-- The data bytes up to the next status byte have no status byte, and the rest starts with one, if it is not empty. -/
theorem nextStatus_split (rest : List Byte) :
    (∀ d ∈ rest.takeWhile (fun c => !isStatus c), isStatus d = false) ∧
    (∀ c ∈ (rest.dropWhile (fun c => !isStatus c)).head?, isStatus c = true) := by
  refine ⟨fun d hd => by simpa using List.mem_takeWhile_imp hd, fun c hc => ?_⟩
  have hne := List.head?_dropWhile_not (fun c => !isStatus c) rest
  rw [Option.mem_def.mp hc] at hne
  simpa using hne

/-- A property of inputs holds of each if one turn of the scan carries it from the rest to the whole. -/
theorem scan_induction {P : List Byte → Prop} (nil : P [])
    (turn : ∀ (b : Byte) (ds after : List Byte), (∀ d ∈ ds, isStatus d = false) →
      (∀ c ∈ after.head?, isStatus c = true) → P after → P (b :: (ds ++ after))) (m : List Byte) : P m := by
  induction hn : m.length using Nat.strong_induction_on generalizing m with
  | _ n ih =>
    cases m with
    | nil => exact nil
    | cons b rest =>
      obtain ⟨hds, hafter⟩ := nextStatus_split rest
      have shorter := (List.dropWhile_sublist (l := rest) (fun c => !isStatus c)).length_le
      rw [List.length_cons] at hn
      have whole := turn b _ _ hds hafter (ih _ (by omega) _ rfl)
      rwa [List.takeWhile_append_dropWhile] at whole

/-! What the spans are (R190, R191). -/

theorem spans_flatten (m : List Byte) : (spans m).flatten = m := by
  induction m using scan_induction with
  | nil => rfl
  | turn b ds after hds hafter ih => rw [spans_turn b hds hafter, List.flatten_cons, ih, List.cons_append]

/-- A span is a head and data bytes. -/
theorem spans_shape {m sp : List Byte} (h : sp ∈ spans m) :
    ∃ b rest, sp = b :: rest ∧ ∀ c ∈ rest, isStatus c = false := by
  induction m using scan_induction with
  | nil => exact absurd h List.not_mem_nil
  | turn b ds after hds hafter ih =>
    rw [spans_turn b hds hafter] at h
    obtain rfl | h := List.mem_cons.mp h
    · exact ⟨b, ds, rfl, hds⟩
    · exact ih h

/-- Where the input starts with a status byte, every span does. -/
theorem spans_status_heads {m sp : List Byte} (hm : ∀ c ∈ m.head?, isStatus c = true) (h : sp ∈ spans m) :
    ∃ b rest, sp = b :: rest ∧ isStatus b = true := by
  induction m using scan_induction with
  | nil => exact absurd h List.not_mem_nil
  | turn b ds after hds hafter ih =>
    rw [spans_turn b hds hafter] at h
    obtain rfl | h := List.mem_cons.mp h
    · exact ⟨b, ds, rfl, hm b rfl⟩
    · exact ih hafter h

/-- Every span but the first starts with a status byte, whatever the input starts with. -/
theorem spans_tail_status_heads {m sp : List Byte} (h : sp ∈ (spans m).tail) :
    ∃ b rest, sp = b :: rest ∧ isStatus b = true := by
  induction m using scan_induction with
  | nil => exact absurd h List.not_mem_nil
  | turn b ds after hds hafter _ =>
    rw [spans_turn b hds hafter, List.tail_cons] at h
    exact spans_status_heads hafter h

/-- The scan of n bytes gives at most n packets: a span of n bytes gives ceil(n / 3) (R196, R277). -/
theorem scanPackets_length_le (m : List Byte) : (scanPackets m).length ≤ m.length := by
  induction m using scan_induction with
  | nil => exact Nat.le_refl 0
  | turn b ds after hds hafter ih =>
    have first := spanPackets_length_le (b :: ds)
    rw [scanPackets_turn b hds hafter]
    simp only [List.length_append, List.length_cons] at first ⊢
    omega

/-! A buffer of one span (R192, R194). -/

theorem scanPackets_data (b : Byte) {ds : List Byte} (h : ∀ d ∈ ds, isStatus d = false) :
    scanPackets (b :: ds) = spanPackets (b :: ds) := by
  rw [scanPackets, spans_data b ds h, List.flatMap_singleton]

/-- A channel-voice span, a leading data byte included, of another than its required size has no packet (R183). -/
theorem spanPackets_wrongSize {b : Byte} {rest : List Byte} (hsys : b &&& 0xF0#8 ≠ 0xF0#8)
    (h : rest.length + 1 ≠ requiredSize b) : spanPackets (b :: rest) = [] := by
  by_cases h2 : b &&& 0xF0#8 = 0xC0#8 ∨ b &&& 0xF0#8 = 0xD0#8
  · rw [requiredSize_cv2 h2] at h
    rw [spanPackets_cv2 rest h2, cv2Packets_dropped b (by omega)]
  · rw [requiredSize_cv3 hsys h2] at h
    rw [spanPackets_cv3 rest hsys h2, cv3Packets_dropped b (by omega)]

theorem dataHead_eq (d : BitVec 7) : dataHead d = BitVec.ofNat 8 d.toNat := by
  revert d; decide

/-- The CIN byte of a leading data byte `d` is `d >> 4` (R192). -/
theorem cvCin_dataHead (d : BitVec 7) : cvCin (dataHead d) = BitVec.ofNat 8 (d.toNat / 16) := by
  revert d; decide

end Sys2Proof.Machine

namespace Sys2Proof.Proofs

open Sys2Proof.Machine

/-- Settles O41: the input is its head, the data bytes up to the next status byte, and the rest. -/
theorem scanTakesUpToNextStatus : Obligations.ScanTakesUpToNextStatus := by
  intro b rest span after
  obtain ⟨hds, hafter⟩ := nextStatus_split rest
  have parts : b :: rest = span ++ after := by
    rw [List.cons_append, List.takeWhile_append_dropWhile]
  rw [parts]
  exact ⟨spans_turn b hds hafter, exec_encode_turn b hds hafter⟩

/-- Settles O42, by induction over the turns of the scan. -/
theorem scanPartitionsInput : Obligations.ScanPartitionsInput := fun m =>
  ⟨spans_flatten m, fun _ => spans_shape, fun _ => spans_tail_status_heads⟩

/-- Settles O43: the buffer is one span, and of the wrong size. -/
theorem runningStatusDropped : Obligations.RunningStatusDropped := fun s b _ hsys hdata hsize =>
  command_emitPackets_none s ((scanPackets_data b hdata).trans (spanPackets_wrongSize hsys hsize))

/-- Settles O44: the bound of a span, and its sum over the turns of the scan. -/
theorem encodeOutputBound : Obligations.EncodeOutputBound := fun m =>
  ⟨scanPackets_length_le m, spanPackets_length_le m⟩

/-- Settles O35: the channel-voice 3-byte packets of a data byte, and a buffer of data bytes is one span. -/
theorem leadingDataRow : Obligations.LeadingDataRow := by
  intro s d h0
  refine ⟨fun d1 d2 hroom => ?_, fun rest h => command_emitPackets_none s (cv3Packets_dropped _ h),
    fun rest hdata => ?_⟩
  · rw [← cvCin_dataHead, ← dataHead_eq]
    exact command_emitPackets_one h0 hroom _
  · rw [← dataHead_eq, exec_span (i := .midiLeadingData d rest) (List.cons_ne_nil _ _)]
    exact congrArg (fun ps => command (emitPackets ps) s) (scanPackets_data _ hdata)

end Sys2Proof.Proofs
end

section
/-! PROOFS. Encoding and decoding (43_encoder.md R198): the packets of a message decode to the message, so those of a
scan over messages decode to the input. -/

namespace Sys2Proof.Machine

/-! The bytes a packet decodes to (R140, R143). -/

/-- The bytes that DECODE of a packet enqueues on an armed block with room: its payload, and none for a reserved CIN. -/
def decodedBytes (p : Packet) : List Byte :=
  if cinOf p.b0 = 0x00#8 ∨ cinOf p.b0 = 0x01#8 then [] else [p.b1, p.b2, p.b3].take (payloadSize (cinOf p.b0))

theorem exec_decodeOfPacket (p : Packet) {s : State} (h0 : s.fault = 0x00#8) (ha : s.rxActive = true)
    (hroom : s.q.length + (decodedBytes p).length ≤ s.params.rxqCapacity) :
    exec (decodeOfPacket p) s = .next (s.withQ (s.q ++ decodedBytes p)) := by
  rw [decodeOfPacket, exec_packetRow_effect]
  unfold decodedBytes at hroom ⊢
  by_cases hc : cinOf p.b0 = 0x00#8 ∨ cinOf p.b0 = 0x01#8
  · rw [if_pos hc, List.append_nil, State.withQ_self]
    exact command_unchanged (if_pos hc)
  · rw [if_neg hc] at hroom ⊢
    have payload : packetEffect (cinOf p.b0) [p.b1, p.b2, p.b3] =
        enqueuePayload ([p.b1, p.b2, p.b3].take (payloadSize (cinOf p.b0))) := funext fun _ => if_neg hc
    rw [payload, command_enqueuePayload_fits h0 ha hroom]

/-- DECODE of packets in order enqueues what they decode to, in order. -/
theorem execAll_decodeOfPacket {ps : List Packet} {s : State} (h0 : s.fault = 0x00#8) (ha : s.rxActive = true)
    (hroom : s.q.length + (ps.flatMap decodedBytes).length ≤ s.params.rxqCapacity) :
    execAll (ps.map decodeOfPacket) s = .next (s.withQ (s.q ++ ps.flatMap decodedBytes)) := by
  induction ps generalizing s with
  | nil => simp [execAll]
  | cons p ps ih =>
    rw [List.flatMap_cons, List.length_append] at hroom
    have first := exec_decodeOfPacket p h0 ha (by omega)
    have rest := ih (s := s.withQ (s.q ++ decodedBytes p)) h0 ha (by simpa [Nat.add_assoc] using hroom)
    rw [List.map_cons, execAll_cons first, rest]
    simp

/-! The packets of a message decode to the message, class by class. -/

theorem decodedBytes_eq {cin : Byte} {n : Nat}
    (h : ¬(cinOf cin = 0x00#8 ∨ cinOf cin = 0x01#8) ∧ payloadSize (cinOf cin) = n) (m0 m1 m2 : Byte) :
    decodedBytes ⟨cin, m0, m1, m2⟩ = [m0, m1, m2].take n := by
  obtain ⟨hc, hsize⟩ := h
  rw [decodedBytes, if_neg hc, hsize]

@[simp] theorem decodedBytes_cin2 (m0 m1 m2 : Byte) : decodedBytes ⟨0x02#8, m0, m1, m2⟩ = [m0, m1] :=
  decodedBytes_eq (n := 2) (by decide) m0 m1 m2

@[simp] theorem decodedBytes_cin3 (m0 m1 m2 : Byte) : decodedBytes ⟨0x03#8, m0, m1, m2⟩ = [m0, m1, m2] :=
  decodedBytes_eq (n := 3) (by decide) m0 m1 m2

@[simp] theorem decodedBytes_cin4 (m0 m1 m2 : Byte) : decodedBytes ⟨0x04#8, m0, m1, m2⟩ = [m0, m1, m2] :=
  decodedBytes_eq (n := 3) (by decide) m0 m1 m2

@[simp] theorem decodedBytes_cin5 (m0 m1 m2 : Byte) : decodedBytes ⟨0x05#8, m0, m1, m2⟩ = [m0] :=
  decodedBytes_eq (n := 1) (by decide) m0 m1 m2

@[simp] theorem decodedBytes_cin6 (m0 m1 m2 : Byte) : decodedBytes ⟨0x06#8, m0, m1, m2⟩ = [m0, m1] :=
  decodedBytes_eq (n := 2) (by decide) m0 m1 m2

@[simp] theorem decodedBytes_cin7 (m0 m1 m2 : Byte) : decodedBytes ⟨0x07#8, m0, m1, m2⟩ = [m0, m1, m2] :=
  decodedBytes_eq (n := 3) (by decide) m0 m1 m2

/-- A channel-voice packet decodes to as many bytes as its status byte requires (R25, R92, R94). -/
theorem decodedBytes_channelVoice {b : Byte} (hb : isStatus b = true) (hsys : b &&& 0xF0#8 ≠ 0xF0#8) (d1 d2 : Byte) :
    decodedBytes ⟨cvCin b, b, d1, d2⟩ = [b, d1, d2].take (requiredSize b) := by
  have cin : ∀ b : Byte, isStatus b = true → b &&& 0xF0#8 ≠ 0xF0#8 →
      ¬(cinOf (cvCin b) = 0x00#8 ∨ cinOf (cvCin b) = 0x01#8) ∧ payloadSize (cinOf (cvCin b)) = requiredSize b := by
    decide
  exact decodedBytes_eq (cin b hb hsys) b d1 d2

/-- The SysEx packets of any bytes decode to these bytes (R187). -/
theorem sysexPackets_decoded (m : List Byte) : (sysexPackets m).flatMap decodedBytes = m := by
  induction m using sysexPackets.induct with
  | case1 | case2 | case3 | case4 => simp [sysexPackets]
  | case5 a b c d rest ih => simp [sysexPackets, ih]

/-- The packets of a message decode to the message (R198). -/
theorem spanPackets_decoded {m : List Byte} (h : IsMessage m) : (spanPackets m).flatMap decodedBytes = m := by
  obtain ⟨b, rest, rfl, hb, -, hsize⟩ := h
  by_cases hsysex : b = 0xF0#8
  · rw [hsysex, spanPackets_sysex, sysexPackets_decoded]
  have size {n : Nat} (hn : requiredSize b = n + 1) : rest.length = n :=
    Nat.succ.inj ((hsize.resolve_left hsysex).trans hn)
  obtain ⟨hsys, h, hp⟩ | ⟨hsys, h, hp⟩ | ⟨h, -⟩ | ⟨h, hp⟩ | ⟨rfl, hp⟩ | ⟨h, hp⟩ := spanPackets_cases b rest
  · have required := requiredSize_cv2 h
    obtain ⟨d1, rfl⟩ := List.length_eq_one_iff.mp (size required)
    simp [hp, cv2Packets, decodedBytes_channelVoice hb hsys, required]
  · have required := requiredSize_cv3 hsys h
    obtain ⟨d1, d2, rfl⟩ := List.length_eq_two.mp (size required)
    simp [hp, cv3Packets, decodedBytes_channelVoice hb hsys, required]
  · exact absurd h hsysex
  · obtain ⟨d1, rfl⟩ := List.length_eq_one_iff.mp (size (requiredSize_sc2 h))
    simp [hp, sc2Packets]
  · obtain ⟨d1, d2, rfl⟩ := List.length_eq_two.mp (size (n := 2) (by decide))
    simp [hp, sc3Packets]
  · obtain rfl := List.length_eq_zero_iff.mp (size (requiredSize_oneByte h))
    simp [hp, oneBytePackets]

/-! The spans of a concatenation of messages are the messages (R190). -/

theorem flatten_head?_status {msgs : List (List Byte)} (h : ∀ m ∈ msgs, IsMessage m) :
    ∀ c ∈ msgs.flatten.head?, isStatus c = true := by
  cases msgs with
  | nil => simp
  | cons m msgs =>
    obtain ⟨b, ds, rfl, hb, -⟩ := h m List.mem_cons_self
    simpa using hb

theorem spans_messages {msgs : List (List Byte)} (h : ∀ m ∈ msgs, IsMessage m) : spans msgs.flatten = msgs := by
  induction msgs with
  | nil => rfl
  | cons m msgs ih =>
    obtain ⟨hm, hmsgs⟩ := List.forall_mem_cons.mp h
    obtain ⟨b, ds, rfl, -, hds, -⟩ := hm
    rw [List.flatten_cons, List.cons_append, spans_turn b hds (flatten_head?_status hmsgs), ih hmsgs]

/-- The packets of a scan over messages decode to the input (R198). -/
theorem scanPackets_decoded {msgs : List (List Byte)} (h : ∀ m ∈ msgs, IsMessage m) :
    (scanPackets msgs.flatten).flatMap decodedBytes = msgs.flatten := by
  rw [scanPackets, spans_messages h, List.flatMap_assoc, ← List.flatMap_id]
  exact List.flatMap_congr fun m hm => spanPackets_decoded (h m hm)

end Sys2Proof.Machine

namespace Sys2Proof.Proofs

open Sys2Proof.Machine

/-- Settles O45: the scan of messages is their packets, and the packets decode to the messages. -/
theorem encodeThenDecodeRoundTrip : Obligations.EncodeThenDecodeRoundTrip := by
  intro s msgs hmsgs h0 ha hq hscr
  have decoded := scanPackets_decoded hmsgs
  refine ⟨_, exec_encode_fits h0 hscr, rfl, ?_⟩
  have run := execAll_decodeOfPacket (ps := scanPackets msgs.flatten)
    (s := s.withScr (s.scr ++ packetsBytes (scanPackets msgs.flatten))) h0 ha (by rw [decoded]; exact hq)
  rw [run, decoded]
  rfl

end Sys2Proof.Proofs
end

section
/-! PROOFS. The transmit hand-off commands (44_tx_handoff.md R220, R221): what the port reads them as, and what each
does to a running block. -/

namespace Sys2Proof.Proofs

open Sys2Proof.Machine

/-- Settles O46: the response is the two halves of the offset and the scratch buffer, and an offset of 16 bits is its
two halves. -/
theorem txTakeRespondsScratch : Obligations.TxTakeRespondsScratch := fun _ h0 hsize =>
  ⟨fun rest => decodePort_encodeInstr (i := .txTake) rest trivial,
    _, _, highByte_lowByte hsize, exec_txTake h0⟩

/-- Settles O47: the release writes the scratch buffer alone. -/
theorem txReleaseEmptiesScratch : Obligations.TxReleaseEmptiesScratch := fun _ h0 =>
  ⟨fun rest => decodePort_encodeInstr (i := .txRelease) rest trivial, exec_txRelease h0⟩

end Sys2Proof.Proofs
end

section
/-! PROOFS. STATUS and the faulted block (60_exceptions.md R245 to R247): what STATUS does in every state, what an
instruction and the port do while a fault stands, and what no step of a faulted block changes. -/

namespace Sys2Proof.Machine

/-- STATUS reads the fault register whether or not it holds a fault (R247). -/
theorem exec_status (s : State) : exec .status s = .next (s.respond [s.fault]) := rfl

/-- Every row of the opcode table but STATUS is a command (R245). -/
theorem exec_eq_command {i : Instr} (hi : i ≠ .status) : ∃ f, ∀ s, exec i s = command f s := by
  cases i with
  | status => exact absurd rfl hi
  | _ => exact ⟨_, fun _ => rfl⟩

theorem exec_faulted {i : Instr} {s : State} (hf : s.fault ≠ 0x00#8) (hi : i ≠ .status) : exec i s = .next s := by
  obtain ⟨f, hcommand⟩ := exec_eq_command hi
  exact (hcommand s).trans (command_faulted hf)

/-! A step of a faulted block, by what waits at its port (R245). -/

theorem step_faulted_nil {s : State} (hf : s.fault ≠ 0x00#8) (hp : s.cmdPort = []) : step s = .next s := by
  rw [step, fetch_faulted hf, fetchFaulted, hp]

theorem step_faulted_status {s : State} {rest : List Byte} (hf : s.fault ≠ 0x00#8)
    (hp : s.cmdPort = 0x7F#8 :: rest) : step s = .next ((s.withCmdPort rest).respond [s.fault]) := by
  have hrun : fetch s = .run .status (s.withCmdPort rest) := by
    rw [fetch_faulted hf, fetchFaulted, hp]
    exact if_pos rfl
  rw [step, hrun]
  exact exec_status _

theorem step_faulted_discard {s : State} {b : Byte} {rest : List Byte} (hf : s.fault ≠ 0x00#8) (hb : b ≠ 0x7F#8)
    (hp : s.cmdPort = b :: rest) : step s = .next (s.withCmdPort rest) := by
  have hsettle : fetch s = .settle (s.withCmdPort rest) := by
    rw [fetch_faulted hf, fetchFaulted, hp]
    exact if_neg hb
  rw [step, hsettle]

/-- Every step of a faulted block moves the command port on and gives some response bytes, none among the
possibilities, and does nothing else (R245). -/
theorem step_faulted_cases {s t : State} (hf : s.fault ≠ 0x00#8) (h : step s = .next t) :
    ∃ bytes r, t = (s.withCmdPort bytes).respond r := by
  obtain ⟨bytes, ⟨i, hi, hstatus⟩ | ht | ⟨h0, -⟩⟩ := step_cases h
  · obtain rfl := hstatus hf
    rw [exec_status] at hi
    cases hi
    exact ⟨bytes, _, rfl⟩
  · exact ⟨bytes, [], by rw [ht, State.respond_nil]⟩
  · exact absurd h0 hf

end Sys2Proof.Machine

namespace Sys2Proof.Proofs

open Sys2Proof.Machine

/-- Settles O51: a faulted block's step by what waits at the port, an instruction on it by whether it is STATUS, and the
reset value of the fault register. -/
theorem faultedStateRunsStatusOnly : Obligations.FaultedStateRunsStatusOnly := fun _ hf =>
  ⟨fun _ hp => step_faulted_status hf hp, fun _ _ hb hp => step_faulted_discard hf hb hp, step_faulted_nil hf,
    fun _ hi => exec_faulted hf hi, rfl⟩

/-- Settles O52: a faulted block's step writes the two ports alone. -/
theorem faultedStepKeepsState : Obligations.FaultedStepKeepsState := by
  intro s t hf h
  obtain ⟨bytes, r, rfl⟩ := step_faulted_cases hf h
  exact ⟨rfl, rfl, rfl, rfl⟩

/-- Settles O50: the port reads the one byte of STATUS, and STATUS responds the fault register in every state. -/
theorem statusReportsFault : Obligations.StatusReportsFault := fun s =>
  ⟨fun rest => decodePort_encodeInstr (i := .status) rest trivial, exec_status s⟩

end Sys2Proof.Proofs
end

section
/-! PROOFS. What a reset by the host leaves of a state: its parameters, and nothing else (70_reset_and_hazards.md
R270). -/

namespace Sys2Proof.Proofs

open Sys2Proof.Machine

/-- Settles O59: `hostReset` takes each element but the parameters from `State.reset`, so each is its reset value by
definition; `TX_PTR` is the length of the scratch buffer, which is empty. -/
theorem resetClearsEverything : Obligations.ResetClearsEverything := fun s =>
  have hscr : (hostReset s).scr = [] := rfl
  have hptr : (hostReset s).txPtr = 0 := congrArg List.length hscr
  ⟨rfl, rfl, hscr, hptr, rfl, rfl, rfl, rfl⟩

end Sys2Proof.Proofs
end
